-- ==== Sys2Proof/Word.lean ====
section
/-! DEFINITION. The two word types of QRGEN: the byte (a field element, an input byte, a codeword, an operand
field; R6, R45) and the 32-bit word (command word, response, RES, FINFO, STATUS; R11, R13, R21, R45). -/

namespace Sys2Proof

/-- 8 bits, value 0 to 255 (R6). -/
abbrev Byte := BitVec 8

/-- 32 bits: a command word (R45), a response (R48), RES (R22), FINFO (R21) or STATUS (R13). -/
abbrev Word := BitVec 32

end Sys2Proof
end

