-- ==== Sys2Proof/Syntax.lean ====
section
/-! DEFINITION. The sixteen commands of R52 with their operands (R47), the three formats (R46), the raw fields of a
command word (R45), and the names under which a word that is no command is rejected (R49 steps 1 and 2). -/

namespace Sys2Proof

/-- One command, one constructor per row of spec/opcode_table.json. Operands are unsigned bytes taken from the word
as they stand (R47), so every term of this type is a well-formed command. -/
inductive Instr where
  /-- OP 0x00, format N (R140). -/
  | nop
  /-- OP 0x01, format N (R141). -/
  | clear
  /-- OP 0x02, format A: `a` is the input byte (R142). -/
  | pushb (a : Byte)
  /-- OP 0x03, format AB: `a` and `b` are the two field elements (R67). -/
  | gfmul (a b : Byte)
  /-- OP 0x04, format N (R84). -/
  | vsel
  /-- OP 0x05, format N (R95). -/
  | pack
  /-- OP 0x06, format N (R103). -/
  | ilv
  /-- OP 0x07, format N (R119). -/
  | mfunc
  /-- OP 0x08, format N (R124). -/
  | mfmt
  /-- OP 0x09, format N (R130). -/
  | mdata
  /-- OP 0x0A, format N (R150). -/
  | gen
  /-- OP 0x10, format N (R151). -/
  | rdstat
  /-- OP 0x11, format N (R152). -/
  | rdflt
  /-- OP 0x12, format A: `a` is the index (R153). -/
  | rddcw (a : Byte)
  /-- OP 0x13, format A: `a` is the index (R154). -/
  | rdcw (a : Byte)
  /-- OP 0x14, format AB: `a` is the row, `b` the column (R155). -/
  | rdmod (a b : Byte)
deriving DecidableEq, Repr

/-- The three formats of R46, told apart by the opcode alone: which operand fields a command uses. -/
inductive Format where
  /-- No operand: A, B and Z must be zero. -/
  | n
  /-- Operand A: B and Z must be zero. -/
  | a
  /-- Operands A and B: Z must be zero. -/
  | ab
deriving DecidableEq, Repr

/-- The four fields of a command word (R45), as raw bytes. -/
structure Fields where
  /-- OP, bits 31:24. -/
  op : Byte
  /-- A, bits 23:16. -/
  a : Byte
  /-- B, bits 15:8. -/
  b : Byte
  /-- Z, bits 7:0. -/
  z : Byte
deriving DecidableEq, Repr

/-- Why a word is no command; both reasons raise IllegalCommand (R49, R162). -/
inductive Reject where
  /-- R49 step 1, R50: the opcode is reserved. -/
  | reservedOpcode
  /-- R49 step 2, R51: a field the format does not use, or Z, is not zero. -/
  | reservedField
deriving DecidableEq, Repr

end Sys2Proof
end

