-- ==== Sys2Proof/WellFormed.lean ====
section
/-! DEFINITION. When a command word is well-formed, said on its raw fields and apart from the decoder: the opcode is
one of the sixteen (R50, R52) and every field its format does not use is zero (R46, R51). A term of `Instr` has no
ill-formed case, since every operand byte is admitted (R47). -/

namespace Sys2Proof

/-- R50: the opcodes that are reserved are 0x0B to 0x0F and 0x15 to 0xFF. -/
def opcodeReserved (op : Byte) : Bool :=
  (0x0B ≤ op.toNat && op.toNat ≤ 0x0F) || 0x15 ≤ op.toNat

/-- R46: the format of an opcode; the commands it does not list are of format N. -/
def formatOfOpcode (op : Byte) : Format :=
  if op = 0x02 ∨ op = 0x12 ∨ op = 0x13 then .a
  else if op = 0x03 ∨ op = 0x14 then .ab
  else .n

/-- R46, R51: the fields a format does not use are zero, and Z always is. -/
def Fields.unusedZero (f : Fields) : Format → Bool
  | .n => f.a == 0 && f.b == 0 && f.z == 0
  | .a => f.b == 0 && f.z == 0
  | .ab => f.z == 0

/-- A well-formed command word: R49 steps 1 and 2 raise nothing. -/
def Fields.wellFormed (f : Fields) : Bool :=
  !opcodeReserved f.op && f.unusedZero (formatOfOpcode f.op)

end Sys2Proof
end

