-- ==== Sys2Proof/Decode.lean ====
section
/-! DEFINITION. The decoder (R49 steps 1 and 2; total on all 2^32 words, rejecting by name), the encoder (R45, R52),
and the decoder on a row of spec/opcode_table.json, whose bit numbering is the command word's own. -/

namespace Sys2Proof

/-- The four fields of a command word (R45). -/
def fields (w : Word) : Fields where
  op := w.extractLsb' 24 8
  a := w.extractLsb' 16 8
  b := w.extractLsb' 8 8
  z := w.extractLsb' 0 8

/-- Format N (R46): no operand. -/
def decodeN (f : Fields) (i : Instr) : Except Reject Instr :=
  if f.a = 0 ∧ f.b = 0 ∧ f.z = 0 then .ok i else .error .reservedField

/-- Format A (R46): operand A. -/
def decodeA (f : Fields) (i : Byte → Instr) : Except Reject Instr :=
  if f.b = 0 ∧ f.z = 0 then .ok (i f.a) else .error .reservedField

/-- Format AB (R46): operands A and B. -/
def decodeAB (f : Fields) (i : Byte → Byte → Instr) : Except Reject Instr :=
  if f.z = 0 then .ok (i f.a f.b) else .error .reservedField

/-- The opcode map of R52 on the fields of a word. -/
def decodeFields (f : Fields) : Except Reject Instr :=
  match f.op.toNat with
  | 0x00 => decodeN f .nop
  | 0x01 => decodeN f .clear
  | 0x02 => decodeA f .pushb
  | 0x03 => decodeAB f .gfmul
  | 0x04 => decodeN f .vsel
  | 0x05 => decodeN f .pack
  | 0x06 => decodeN f .ilv
  | 0x07 => decodeN f .mfunc
  | 0x08 => decodeN f .mfmt
  | 0x09 => decodeN f .mdata
  | 0x0A => decodeN f .gen
  | 0x10 => decodeN f .rdstat
  | 0x11 => decodeN f .rdflt
  | 0x12 => decodeA f .rddcw
  | 0x13 => decodeA f .rdcw
  | 0x14 => decodeAB f .rdmod
  | _ => .error .reservedOpcode

/-- Decoding reads the word and nothing else (R49 steps 1 and 2, R53). -/
def decode (w : Word) : Except Reject Instr :=
  decodeFields (fields w)

/-- The opcode of a command (R52). -/
def Instr.opcode : Instr → Byte
  | .nop => 0x00
  | .clear => 0x01
  | .pushb _ => 0x02
  | .gfmul _ _ => 0x03
  | .vsel => 0x04
  | .pack => 0x05
  | .ilv => 0x06
  | .mfunc => 0x07
  | .mfmt => 0x08
  | .mdata => 0x09
  | .gen => 0x0A
  | .rdstat => 0x10
  | .rdflt => 0x11
  | .rddcw _ => 0x12
  | .rdcw _ => 0x13
  | .rdmod _ _ => 0x14

/-- The A field of a command's word: its first operand, zero where the format has none (R46, R47). -/
def Instr.fieldA : Instr → Byte
  | .pushb a | .rddcw a | .rdcw a => a
  | .gfmul a _ | .rdmod a _ => a
  | .nop | .clear | .vsel | .pack | .ilv | .mfunc | .mfmt | .mdata | .gen | .rdstat | .rdflt => 0

/-- The B field of a command's word: its second operand, zero where the format has none (R46, R47). -/
def Instr.fieldB : Instr → Byte
  | .gfmul _ b | .rdmod _ b => b
  | .pushb _ | .rddcw _ | .rdcw _ => 0
  | .nop | .clear | .vsel | .pack | .ilv | .mfunc | .mfmt | .mdata | .gen | .rdstat | .rdflt => 0

/-- The word with the given fields, read `OP A B Z` left to right in hexadecimal (R45). -/
def Fields.word (f : Fields) : Word :=
  f.op ++ (f.a ++ (f.b ++ f.z))

/-- The fields of a command's word (R45 to R47); Z is always zero. -/
def Instr.fields (i : Instr) : Fields where
  op := i.opcode
  a := i.fieldA
  b := i.fieldB
  z := 0

/-- The command word of a command (R45, R52). -/
def encode (i : Instr) : Word :=
  i.fields.word

/-- The format of a command (R46). -/
def Instr.format : Instr → Format
  | .pushb _ | .rddcw _ | .rdcw _ => .a
  | .gfmul _ _ | .rdmod _ _ => .ab
  | .nop | .clear | .vsel | .pack | .ilv | .mfunc | .mfmt | .mdata | .gen | .rdstat | .rdflt => .n

/-- The `mask` column of R52: the bits outside the operand fields. -/
def Format.mask : Format → Word
  | .n => 0xFFFFFFFF
  | .a => 0xFF00FFFF
  | .ab => 0xFF0000FF

/-- The `match` column of R52: the opcode in bits 31:24, all else zero. -/
def Instr.matchWord (i : Instr) : Word :=
  i.opcode.setWidth 32 <<< 24

/-- What the decoder reads from a table row's bits: bit 0 is the word's bit 0 (R45), bits above `nbits` are zero. -/
def decodeTableWord (nbits w : Nat) : Option Instr :=
  (decode (BitVec.ofNat 32 (w % 2 ^ nbits))).toOption

/-- PUSHS (R55): one PUSHB per byte of the text, in order. -/
def pushs (text : List Byte) : List Instr :=
  text.map .pushb

/-- ENCODE (R55): CLEAR, then PUSHS of the text, then GEN. -/
def encodeText (text : List Byte) : List Instr :=
  .clear :: (pushs text ++ [.gen])

end Sys2Proof
end

