-- ==== Sys2Proof/Config.lean ====
section
/-! DEFINITION. The configuration record: the capacity table CAP (R80, R81) and the format value FORMAT (R121), which
the spec names as parameters with default values (R5, D18, U16), and the side conditions a configuration must meet
(R80, U6, U12). The spec leaves no value free, so no constant here is without a body. -/

namespace Sys2Proof

/-- The supported versions, 1 to 6 (R5, R16). -/
inductive Version where
  | v1 | v2 | v3 | v4 | v5 | v6
deriving DecidableEq, Repr

/-- The number of a version. -/
def Version.number : Version → Nat
  | .v1 => 1
  | .v2 => 2
  | .v3 => 3
  | .v4 => 4
  | .v5 => 5
  | .v6 => 6

/-- The versions in increasing order, the order in which the selector tries them (R83). -/
def Version.all : List Version :=
  [.v1, .v2, .v3, .v4, .v5, .v6]

/-- The side of the grid, `17 + 4*version` (R5, R16). -/
def Version.size (v : Version) : Nat :=
  17 + 4 * v.number

/-- `blockCount` is 1 or 2 (R80). -/
inductive BlockCount where
  | one | two
deriving DecidableEq, Repr

/-- The number of blocks. -/
def BlockCount.toNat : BlockCount → Nat
  | .one => 1
  | .two => 2

/-- One entry of the capacity table (R80). -/
structure CapEntry where
  /-- Codewords placed in the grid. -/
  totalCodewords : Nat
  /-- Codewords that carry the bitstream. -/
  dataCodewords : Nat
  /-- Error-correction codewords of each block. -/
  ecCodewordsPerBlock : Nat
  /-- One block or two. -/
  blockCount : BlockCount
  /-- Ordered list of module coordinates of the alignment markers (R115). -/
  alignmentCenters : List Nat
deriving DecidableEq, Repr

/-- The two configuration records of D18. -/
structure Config where
  /-- CAP, the capacity entry of each version (R80). -/
  cap : Version → CapEntry
  /-- FORMAT, the 15-bit format value (R121). -/
  format : BitVec 15

/-- The values of R81. -/
def Config.defaultCap : Version → CapEntry
  | .v1 => ⟨26, 19, 7, .one, []⟩
  | .v2 => ⟨44, 34, 10, .one, [6, 18]⟩
  | .v3 => ⟨70, 55, 15, .one, [6, 22]⟩
  | .v4 => ⟨100, 80, 20, .one, [6, 26]⟩
  | .v5 => ⟨134, 108, 26, .one, [6, 30]⟩
  | .v6 => ⟨172, 136, 18, .two, [6, 34]⟩

/-- The configuration of QRGEN: the default values of R81 and R121. -/
def Config.default : Config where
  cap := Config.defaultCap
  format := 0x77C4

/-- `cap(v)` of the machine (R80). -/
def cap (v : Version) : CapEntry :=
  Config.default.cap v

/-- R80: `totalCodewords == dataCodewords + ecCodewordsPerBlock * blockCount`. -/
def CapEntry.balanced (e : CapEntry) : Bool :=
  e.totalCodewords == e.dataCodewords + e.ecCodewordsPerBlock * e.blockCount.toNat

/-- U6: the data codewords split evenly into the blocks. -/
def CapEntry.splitsEvenly (e : CapEntry) : Bool :=
  e.dataCodewords % e.blockCount.toNat == 0

/-- R131: the number of cells data placement fills, by version. -/
def Version.dataCells (v : Version) : Nat :=
  v.size ^ 2 - 223 - 2 * (v.size - 16) - (if v = .v1 then 0 else 25)

/-- U12: every codeword bit has a cell. -/
def CapEntry.fits (e : CapEntry) (v : Version) : Bool :=
  8 * e.totalCodewords ≤ v.dataCells

/-- The conditions the spec puts on a configuration (R80, D22, U6, U12). -/
def Config.sound (c : Config) : Bool :=
  Version.all.all fun v => (c.cap v).balanced && (c.cap v).splitsEvenly && (c.cap v).fits v

end Sys2Proof
end

