-- ==== Sys2Proof/Machine/State.lean ====
section
/-! DEFINITION. The state of QRGEN (10_state.md) as plain data, its reset value (R25), and the reasons a step can end
in a fault or a refusal. -/

namespace Sys2Proof.Machine

/-- PHASE (R12): the stage the current call has reached. A 4-bit register whose values 8 to 15 are never taken. -/
inductive Phase where
  /-- 0: a call is open; input bytes may be pushed. -/
  | load
  /-- 1: the version is chosen. -/
  | selected
  /-- 2: the data codewords are built. -/
  | packed
  /-- 3: the final codeword sequence is built. -/
  | coded
  /-- 4: the grid holds the functional patterns. -/
  | func
  /-- 5: the grid also holds both format-information copies. -/
  | fmt
  /-- 6: every cell of the grid is assigned; the grid is the output. -/
  | done
  /-- 7: the call failed with CapacityExceeded. -/
  | error
deriving DecidableEq, Repr

/-- FLT (R20): no protocol fault recorded, or the first one recorded since reset. -/
inductive FaultCode where
  /-- 0. -/
  | none
  /-- 1 (R162). -/
  | illegalCommand
  /-- 2 (R163). -/
  | sequenceError
  /-- 3 (R164). -/
  | indexRange
deriving DecidableEq, Repr

/-- One cell of the grid in its three-state representation (R19). -/
inductive Cell where
  /-- U. -/
  | unassigned
  /-- L, `false`, bit value 0 (R110). -/
  | light
  /-- D, `true`, bit value 1 (R110). -/
  | dark
deriving DecidableEq, Repr

/-- A byte buffer (IN, DCW, CW; R30): the bytes that hold a value, by index, indices strictly rising. -/
abbrev Memory := List Host.Cell

/-- The module grid (R19): the rows of the current grid, row 0 first, each row's cells column 0 first (R34). Cells that
are not listed hold no value: none is listed while no grid is allocated, and none outside `size`. -/
abbrev Grid := List (List Cell)

/-- What the host does to the block, the whole of R186. -/
inductive HostAction where
  /-- Present one 32-bit command word and wait for the response. -/
  | command (w : Word)
  /-- Apply reset, between commands (R180). -/
  | reset
deriving DecidableEq, Repr

/-- The index spaces a command reads whose locations can be without a value (R26, R30). -/
inductive Space where
  | inp | dcw | cw | grid
deriving DecidableEq, Repr

/-- The reasons a step stops. No protocol fault of the spec is among them: those and CapacityExceeded are next
states (R166, R167). Both stand for something the spec says cannot happen, and no run from reset reaches them. -/
inductive Fault where
  /-- Raised by PACK, ILV, MFUNC, MFMT, MDATA, RDDCW, RDCW and RDMOD (and never by GEN, which selects first) when they
  run with no version selected (VER = 0), where `cap(VER)` and `size` do not exist (R16, R80). Safe. -/
  | noVersion
  /-- Raised by PACK, ILV, MFMT, MDATA, GEN, RDDCW, RDCW and RDMOD when they read a location that holds no value, which R26
  says is impossible. Safe. -/
  | noValue (sp : Space)
deriving DecidableEq, Repr

/-- The reasons a step has no meaning. -/
inductive Refusal where
  /-- Raised by an arm of `exec` whose instruction has no meaning yet; no arm does. Safe. -/
  | notModelled (mnemonic : String)
deriving DecidableEq, Repr

/-- The state of QRGEN. The constants EXP, LOG, CAP and FORMAT are never written (R23) and so are no fields; what
lives inside one command only (R24) is no field either. STATUS is a view (R13). -/
structure State where
  /-- PHASE (R12). -/
  phase : Phase
  /-- VER (R16): `none` is the register's value 0, "no version is selected". -/
  ver : Option Version
  /-- LEN (R15). -/
  len : Byte
  /-- OVF (R15, R27). -/
  ovf : Bool
  /-- IN (R15). -/
  inp : Memory
  /-- DCW (R17). -/
  dcw : Memory
  /-- CW (R18). -/
  cw : Memory
  /-- GRID (R19). -/
  grid : Grid
  /-- FLT (R20). -/
  flt : FaultCode
  /-- FINFO (R21). -/
  finfo : Word
  /-- RES (R22). -/
  res : Word
  /-- RSP (R48, R186): what the host got back from its last interaction, `none` where that was nothing.
  DESIGN CHOICE (log entry 3): the spec gives the response no storage. -/
  rsp : Option Word
  /-- What the host is going to do, next action first (R186, R191).
  DESIGN CHOICE (log entry 1): the model's own field; the command port holds no queue of its own. -/
  host : List HostAction
deriving DecidableEq, Repr

/-- The state after reset (R25, R180), with no host action pending. -/
def State.reset : State where
  phase := .load
  ver := none
  len := 0
  ovf := false
  inp := []
  dcw := []
  cw := []
  grid := []
  flt := .none
  finfo := 0
  res := 0
  rsp := none
  host := []

end Sys2Proof.Machine
end

