-- ==== Sys2Proof/Machine/Ops.lean ====
section
/-! DEFINITION. The named operations every meaning is written with: the byte buffers and the grid, the register
updates, the phase check (R56), taking a protocol fault (R166) and CapacityExceeded (R167), and one host interaction
(R186). -/

namespace Sys2Proof.Machine

/-! ### Byte buffers (R30) -/

/-- What an index that is not listed reads as: no value (R26). -/
def Memory.unlisted : Option Byte :=
  none

/-- `MemRead(SPACE, i)` (R9): the byte at an index, if it holds one. -/
def Memory.read : Memory → Nat → Option Byte
  | [], _ => Memory.unlisted
  | (k, v) :: m, i => if k = i then some v else Memory.read m i

/-- `MemWrite(SPACE, i, v)` (R9). -/
def Memory.write : Memory → Nat → Byte → Memory
  | [], i, v => [(i, v)]
  | (k, u) :: m, i, v =>
    if i < k then (i, v) :: (k, u) :: m
    else if i = k then (i, v) :: m
    else (k, u) :: Memory.write m i v

/-- Write consecutive bytes from index `i` on, lowest index first (R33). -/
def Memory.store : Memory → Nat → List Byte → Memory
  | m, _, [] => m
  | m, i, v :: vs => Memory.store (Memory.write m i v) (i + 1) vs

/-- Read `n` consecutive bytes from index `i` on; nothing if one of them holds no value. -/
def Memory.load (m : Memory) (i : Nat) : Nat → Option (List Byte)
  | 0 => some []
  | n + 1 =>
    match Memory.read m i, Memory.load m (i + 1) n with
    | some v, some vs => some (v :: vs)
    | _, _ => none

/-- The canonical form of a buffer: indices strictly rising, so that equal buffers are equal data. No listed entry can
equal what an unlisted index reads as, which is no value. -/
abbrev Memory.wf (m : Memory) : Prop :=
  m.Pairwise fun x y => x.1 < y.1

/-! ### The grid (R19) -/

/-- Set every cell of a `size × size` grid to U (R111). -/
def Grid.alloc (size : Nat) : Grid :=
  List.replicate size (List.replicate size .unassigned)

/-- `MemRead(GRID, r, c)` (R9): the state of a cell, if the grid has that cell. -/
def Grid.get : Grid → Nat → Nat → Option Cell
  | [], _, _ => none
  | row :: _, 0, c => row[c]?
  | _ :: g, r + 1, c => Grid.get g r c

/-- `MemWrite(GRID, r, c, v)` (R9) to a cell of the grid. -/
def Grid.set : Grid → Nat → Nat → Cell → Grid
  | [], _, _, _ => []
  | row :: g, 0, c, v => row.set c v :: g
  | row :: g, r + 1, c, v => row :: Grid.set g r c v

/-- Writes to cells, in order. -/
def Grid.setAll : Grid → List (Nat × Nat × Cell) → Grid
  | g, [] => g
  | g, (r, c, v) :: ws => Grid.setAll (Grid.set g r c v) ws

/-- The grid is a `size × size` grid: every cell with `row < size` and `col < size` holds a state, and no other. -/
def Grid.isSquare (g : Grid) (size : Nat) : Bool :=
  g.length == size && g.all fun row => row.length == size

/-! ### Registers -/

/-- `RES <- w` (R22). -/
def State.writeRes (s : State) (w : Word) : State :=
  { s with res := w }

/-- The per-call state as CLEAR leaves it (R141, R14): RES, FLT and FINFO are not per-call state. -/
def State.clearCall (s : State) : State :=
  { s with phase := .load, ver := none, len := 0, ovf := false, inp := [], dcw := [], cw := [], grid := [] }

/-! ### The two classes of abnormal outcome (R160) -/

/-- Protocol fault entry (R166), the machine's one way of taking an exception: the first fault since reset is recorded
with its command word, a later one changes nothing (R169), and control goes nowhere. There is no return from it (R168). -/
def State.raise (s : State) (code : FaultCode) (cmd : Word) : State :=
  if s.flt = .none then { s with flt := code, finfo := cmd } else s

/-- `fail CapacityExceeded` (R85, R167): `VER <- 0; PHASE <- ERROR`, nothing else. CLEAR is the way back (R168). -/
def State.failCapacity (s : State) : State :=
  { s with ver := none, phase := .error }

/-! ### The phase check (R56) -/

/-- The phases in which a command is legal, the table of R56. -/
def legal : Instr → Phase → Bool
  | .nop, _ => true
  | .clear, _ => true
  | .gfmul _ _, _ => true
  | .rdstat, _ => true
  | .rdflt, _ => true
  | .pushb _, p => p == .load
  | .vsel, p => p == .load
  | .gen, p => p == .load
  | .pack, p => p == .selected
  | .ilv, p => p == .packed
  | .mfunc, p => p == .coded
  | .mfmt, p => p == .func
  | .mdata, p => p == .fmt
  | .rddcw _, p => p == .packed || p == .coded || p == .func || p == .fmt || p == .done
  | .rdcw _, p => p == .coded || p == .func || p == .fmt || p == .done
  | .rdmod _ _, p => p == .done

/-- R49 steps 3 and 4: SequenceError in an illegal phase, else the command's rule. -/
def guarded (i : Instr) (s : State) (body : State → Host.Outcome State Fault Refusal) :
    Host.Outcome State Fault Refusal :=
  if legal i s.phase then body s else .next (s.raise .sequenceError (encode i))

/-! ### Reading what a command needs -/

/-- Use the selected version; with none selected there is no capacity entry and no size (R16, R80). -/
def withVersion (s : State) (k : Version → Host.Outcome State Fault Refusal) : Host.Outcome State Fault Refusal :=
  match s.ver with
  | some v => k v
  | none => .fault .noVersion

/-- Use the bytes at indices 0 to `n − 1` of a buffer; a location without a value cannot be read (R26). -/
def withBytes (sp : Space) (m : Memory) (n : Nat) (k : List Byte → Host.Outcome State Fault Refusal) :
    Host.Outcome State Fault Refusal :=
  match Memory.load m 0 n with
  | some bs => k bs
  | none => .fault (.noValue sp)

/-- Use the current grid of side `size`; cells without a value cannot be read (R19, R26). -/
def withGrid (s : State) (size : Nat) (k : Grid → Host.Outcome State Fault Refusal) :
    Host.Outcome State Fault Refusal :=
  if Grid.isSquare s.grid size then k s.grid else .fault (.noValue .grid)

/-- Go on from a next state with another body; a stop stays a stop. -/
def andThen (o : Host.Outcome State Fault Refusal) (k : State → Host.Outcome State Fault Refusal) :
    Host.Outcome State Fault Refusal :=
  match o with
  | .next s => k s
  | .fault f => .fault f
  | .refused r => .refused r

/-! ### One host interaction (R186) -/

/-- The host's action is taken off its list. -/
def State.withHost (s : State) (rest : List HostAction) : State :=
  { s with host := rest }

/-- The response (R48): the host receives RES as it stands after the command. -/
def State.respond (s : State) : State :=
  { s with rsp := some s.res }

/-- Execute one command word to its response: decode (R49 steps 1 and 2), execute, respond (R48). -/
def runCommand (exec : Instr → State → Host.Outcome State Fault Refusal) (w : Word) (s : State) :
    Host.Outcome State Fault Refusal :=
  match decode w with
  | .ok i => andThen (exec i s) fun t => .next t.respond
  | .error _ => .next (s.raise .illegalCommand w).respond

/-- The host applies reset (R180): every piece of state takes its reset value, and the host gets nothing back. -/
def applyReset (rest : List HostAction) : State :=
  State.reset.withHost rest

/-- Present a command word before anything else the host is going to do. -/
def State.presentFirst (s : State) (w : Word) : State :=
  s.withHost (.command w :: s.host)

end Sys2Proof.Machine
end

