-- ==== Sys2Proof/Machine/Flags.lean ====
section
/-! DEFINITION. The one flag, OVF (R27), and the status word with the codes of its fields (R13). -/

namespace Sys2Proof.Machine

/-- The value of PHASE (R12). -/
def Phase.code : Phase → BitVec 4
  | .load => 0
  | .selected => 1
  | .packed => 2
  | .coded => 3
  | .func => 4
  | .fmt => 5
  | .done => 6
  | .error => 7

/-- The value of FLT (R20, R162 to R164). -/
def FaultCode.code : FaultCode → BitVec 2
  | .none => 0
  | .illegalCommand => 1
  | .sequenceError => 2
  | .indexRange => 3

/-- The value of VER (R16). -/
def verCode : Option Version → BitVec 3
  | none => 0
  | some v => BitVec.ofNat 3 v.number

/-- STATUS (R13, R151): `(FLT << 16) or (LEN << 8) or (OVF << 7) or (VER << 4) or PHASE`. -/
def statusWord (s : State) : Word :=
  (s.flt.code.setWidth 32 <<< 16) ||| (s.len.setWidth 32 <<< 8) ||| ((BitVec.ofBool s.ovf).setWidth 32 <<< 7)
    ||| ((verCode s.ver).setWidth 32 <<< 4) ||| s.phase.code.setWidth 32

/-- The flag computation of PUSHB (R142): OVF is set when a byte arrives at LEN = 255, and is otherwise kept. -/
def overflows (s : State) : Bool :=
  s.len == 255

end Sys2Proof.Machine
end

