-- ==== Sys2Proof/Machine/Operands.lean ====
section
/-! DEFINITION. The operand forms (R47): a byte of input, a field element, an element index, a row and a column; the
zero extension of results (R22, R36); and the index checks (R164). -/

namespace Sys2Proof.Machine

/-- `zext_32(v)` of a byte (R9). -/
def zext32 (v : Byte) : Word :=
  v.setWidth 32

/-- An index operand is the unsigned value of its field (R47). -/
def indexOf (a : Byte) : Nat :=
  a.toNat

/-- R164: an index at or beyond the number of valid elements raises IndexRange with the command word and does nothing
else; an index inside gives the element. -/
def checkIndex (i : Instr) (s : State) (inRange : Prop) [Decidable inRange]
    (k : Host.Outcome State Fault Refusal) : Host.Outcome State Fault Refusal :=
  if inRange then k else .next (s.raise .indexRange (encode i))

/-- Read one byte of a buffer into RES, zero-extended (R153, R154). -/
def readByte (sp : Space) (m : Memory) (a : Byte) (s : State) : Host.Outcome State Fault Refusal :=
  match Memory.read m (indexOf a) with
  | some v => .next (s.writeRes (zext32 v))
  | none => .fault (.noValue sp)

/-- The module value of a cell (R155): 1 for D, else 0. -/
def moduleValue (c : Option Cell) : Word :=
  if c = some .dark then 1 else 0

end Sys2Proof.Machine
end

