-- ==== Sys2Proof/Machine/Field.lean ====
section
/-! DEFINITION. The field arithmetic of GF(256) (40_field_arithmetic.md): the EXP and LOG tables built as R60 and R61
say, the product (R62), the equal bitwise form (R65), and GFMUL (R67). Addition is exclusive or (R63). -/

namespace Sys2Proof.Machine

/-- One doubling with its conditional reduction (R60): `x*2`, then xor 0x11D when bit 8 is set. -/
def double (x : Byte) : Byte :=
  if x.msb then (x <<< 1) ^^^ 0x1D else x <<< 1

/-- `n` entries of the first loop of R60, from the value `x` on. -/
def powersFrom : Nat → Byte → List Byte
  | 0, _ => []
  | n + 1, x => x :: powersFrom n (double x)

/-- `EXP[0..254]` (R60). -/
def expLow : List Byte :=
  powersFrom 255 1

/-- EXP, 512 entries (R60): the second loop repeats the first 255 entries. -/
def expTable : List Byte :=
  (expLow ++ expLow ++ expLow).take 512

theorem expTable_length : expTable.length = 512 := by decide +kernel

/-- `EXP[i]` (R60). Indices from 512 on do not exist (U2), so the index type ends there. -/
def expEntry (i : Fin 512) : Byte :=
  expTable[i.val]'(by rw [expTable_length]; exact i.isLt)

/-- The 255 values `EXP[0..254]` are the 255 non-zero bytes (R61). -/
theorem expLow_complete (a : Byte) (h : a ≠ 0) : expLow.idxOf a < 255 := by
  revert a
  decide +kernel

/-- `LOG[a]` (R61): the index i in 0..254 with `EXP[i] = a`. There is no `LOG[0]` (U1), so the read needs `a ≠ 0`. -/
def logOf (a : Byte) (h : a ≠ 0) : Fin 255 :=
  ⟨expLow.idxOf a, expLow_complete a h⟩

/-- The product of two field elements (R62): the sum of the logarithms is an integer sum, not reduced. -/
def gfmul (a b : Byte) : Byte :=
  if ha : a = 0 then 0
  else if hb : b = 0 then 0
  else expEntry ⟨(logOf a ha).val + (logOf b hb).val, by
    have := (logOf a ha).isLt; have := (logOf b hb).isLt; omega⟩

/-- `α^i` (R60, R70): `EXP[i mod 255]`, which is `EXP[i]` at every index EXP has. DEDUCED (log entry 13): the same for the
exponents from 512 on, where EXP has no entry. -/
def alphaPow (i : Nat) : Byte :=
  expEntry ⟨i % 255, by have := Nat.mod_lt i (show 0 < 255 by decide); omega⟩

/-- The loop of R65, `n` rounds left: `p` accumulates, `a` doubles, `b` shifts right. -/
def clmulLoop : Nat → Byte → Byte → Byte → Byte
  | 0, p, _, _ => p
  | n + 1, p, a, b => clmulLoop n (if b.getLsbD 0 then p ^^^ a else p) (double a) (b >>> 1)

/-- The bitwise product of R65. -/
def clmul (a b : Byte) : Byte :=
  clmulLoop 8 0 a b

/-- GFMUL (R67): `RES <- zext_32(gfmul(A, B))`. -/
def execGfmul (a b : Byte) (s : State) : Host.Outcome State Fault Refusal :=
  guarded (.gfmul a b) s fun s => .next (s.writeRes (zext32 (gfmul a b)))

end Sys2Proof.Machine
end

