-- ==== Sys2Proof/Machine/ReedSolomon.lean ====
section
/-! DEFINITION. The error-correction encoder (41_error_correction.md): the generator polynomial by convolution (R70)
and the synthetic division with its accumulator register (R71). A polynomial is a list of coefficients, highest degree
first (R8). -/

namespace Sys2Proof.Machine

/-- One factor `(x + a)` of R70: `h[k] = g[k] xor gfmul(g[k−1], a)`, where `prev` is `g[k−1]` (0 before the first). -/
def mulFactor (a : Byte) (prev : Byte) : List Byte → List Byte
  | [] => [gfmul prev a]
  | c :: g => (c ^^^ gfmul prev a) :: mulFactor a c g

/-- `genpoly(n)` (R70): the product of `(x + α^i)` for i = 0 to n−1. DESIGN CHOICE (log entry 12): R70 gives it for n ≥ 1
only; at 0, which nothing uses but the recursion, it is the polynomial 1. -/
def genpoly : Nat → List Byte
  | 0 => [1]
  | n + 1 => mulFactor (alphaPow n) 0 (genpoly n)

/-- The shifted accumulator, each cell xored with its generator coefficient times the factor `f` (R71). -/
def mulXor (f : Byte) (shifted taps : List Byte) : List Byte :=
  List.zipWith (fun x g => x ^^^ gfmul g f) shifted taps

/-- The division step of R71 for the factor `f`: shift, then, unless `f` is zero, multiply-xor by `G[1..n]`. -/
def divStep (taps r : List Byte) (f : Byte) : List Byte :=
  if f = 0 then r.tail ++ [0] else mulXor f (r.tail ++ [0]) taps

/-- One input byte of R71: it is xored into the leading cell, which gives the factor. -/
def rsStep (taps : List Byte) (r : List Byte) (d : Byte) : List Byte :=
  divStep taps r (r.headD 0 ^^^ d)

/-- `rs_encode(data, n)` (R71). DESIGN CHOICE (log entry 12): R71 defines it for n ≥ 1 only and R74 says that 0 is never
used; at 0 it has some list of at most one byte as value, on which no statement rests. -/
def rsEncode (data : List Byte) (n : Nat) : List Byte :=
  data.foldl (rsStep (genpoly n).tail) (List.replicate n 0)

/-- The value of a polynomial at a point, as the syndrome check of R72 computes it. -/
def polyEval (x : Byte) (p : List Byte) : Byte :=
  p.foldl (fun acc c => gfmul acc x ^^^ c) 0

end Sys2Proof.Machine
end

