-- ==== Sys2Proof/Machine/Interleaver.lean ====
section
/-! DEFINITION. The block interleaver (44_interleaver.md): split (R100), per-block error correction (R101), final order
(R102), and ILV (R103). -/

namespace Sys2Proof.Machine

/-- The block split (R100): one block, or two contiguous ones of which block 0 has `dc div 2` bytes. -/
def splitBlocks (data : List Byte) : BlockCount → List (List Byte)
  | .one => [data]
  | .two => [data.take (data.length / 2), data.drop (data.length / 2)]

/-- A round-robin pass of R102 over `n` positions: position i of every block that has one, in block order. -/
def roundRobin (n : Nat) (blocks : List (List Byte)) : List Byte :=
  (List.range n).flatMap fun i => blocks.filterMap fun b => b[i]?

/-- The length of the longest block. -/
def longest (blocks : List (List Byte)) : Nat :=
  blocks.foldl (fun n b => max n b.length) 0

/-- The EC bytes of each block (R101), `n` per block. -/
def ecOf (n : Nat) (blocks : List (List Byte)) : List (List Byte) :=
  blocks.map fun b => rsEncode b n

/-- The final order of given blocks (R102): the data pass, then the EC pass. -/
def interleave (n : Nat) (blocks : List (List Byte)) : List Byte :=
  roundRobin (longest blocks) blocks ++ roundRobin n (ecOf n blocks)

/-- The final codeword sequence of the data codewords (R100 to R102). -/
def finalCodewords (e : CapEntry) (data : List Byte) : List Byte :=
  interleave e.ecCodewordsPerBlock (splitBlocks data e.blockCount)

/-- The body of ILV (R103). -/
def ilvBody (s : State) : Host.Outcome State Fault Refusal :=
  withVersion s fun v =>
    withBytes .dcw s.dcw (cap v).dataCodewords fun data =>
      .next { s with
        cw := Memory.store s.cw 0 ((finalCodewords (cap v) data).take (cap v).totalCodewords)
        phase := .coded }

/-- ILV (R103). -/
def execIlv (s : State) : Host.Outcome State Fault Refusal :=
  guarded .ilv s ilvBody

end Sys2Proof.Machine
end

