-- ==== Sys2Proof/Machine/Bitstream.lean ====
section
/-! DEFINITION. The bitstream builder (43_bitstream.md): header and payload (R90), terminator (R91), bit padding (R92),
grouping (R93), pad bytes (R94), and PACK (R95). A bit is a Bool, the first bit of a sequence its head. -/

namespace Sys2Proof.Machine

/-- The 8 bits of a byte, most significant first (R32). -/
def bitsOfByte (v : Byte) : List Bool :=
  [v.getLsbD 7, v.getLsbD 6, v.getLsbD 5, v.getLsbD 4, v.getLsbD 3, v.getLsbD 2, v.getLsbD 1, v.getLsbD 0]

/-- `emit(0b0100, 4)`, the byte-mode indicator (R90). -/
def modeIndicator : List Bool :=
  [false, true, false, false]

/-- Header and payload (R90): the mode indicator, the character count, the input bytes. -/
def payloadBits (len : Byte) (input : List Byte) : List Bool :=
  modeIndicator ++ bitsOfByte len ++ input.flatMap bitsOfByte

/-- The terminator (R91): up to `n` times, one 0 bit while the sequence is shorter than `capbits`. -/
def terminate (capbits : Nat) : Nat → List Bool → List Bool
  | 0, bits => bits
  | n + 1, bits => if bits.length < capbits then terminate capbits n (bits ++ [false]) else bits

/-- Bit padding (R92): 0 bits up to the next multiple of 8. -/
def padToByte (bits : List Bool) : List Bool :=
  bits ++ List.replicate ((8 - bits.length % 8) % 8) false

/-- The byte whose bits, most significant first, are given (R93). -/
def byteOfBits (b7 b6 b5 b4 b3 b2 b1 b0 : Bool) : Byte :=
  BitVec.ofNat 8 (128 * b7.toNat + 64 * b6.toNat + 32 * b5.toNat + 16 * b4.toNat + 8 * b3.toNat + 4 * b2.toNat
    + 2 * b1.toNat + b0.toNat)

/-- Grouping (R93): 8 bits at a time from the start, the first bit of a group as bit 7. -/
def group : List Bool → List Byte
  | b7 :: b6 :: b5 :: b4 :: b3 :: b2 :: b1 :: b0 :: rest => byteOfBits b7 b6 b5 b4 b3 b2 b1 b0 :: group rest
  | _ => []

/-- `n` pad bytes (R94): 0xEC and 0x11 alternately; `first` says that 0xEC comes next. -/
def padBytes : Nat → Bool → List Byte
  | 0, _ => []
  | n + 1, first => (if first then 0xEC else 0x11) :: padBytes n (!first)

/-- The bytes of the bit sequence, before the pad bytes (R90 to R93). -/
def payloadBytes (dc : Nat) (len : Byte) (input : List Byte) : List Byte :=
  group (padToByte (terminate (8 * dc) 4 (payloadBits len input)))

/-- Pad bytes up to `dc` bytes (R94), of which PACK writes the first `dc` (R95). -/
def fillTo (dc : Nat) (out : List Byte) : List Byte :=
  (out ++ padBytes (dc - out.length) true).take dc

/-- The data codewords (R95): `dc` bytes from the length and the input. -/
def dataCodewords (dc : Nat) (len : Byte) (input : List Byte) : List Byte :=
  fillTo dc (payloadBytes dc len input)

/-- The body of PACK (R95). -/
def packBody (s : State) : Host.Outcome State Fault Refusal :=
  withVersion s fun v =>
    withBytes .inp s.inp s.len.toNat fun input =>
      .next { s with
        dcw := Memory.store s.dcw 0 (dataCodewords (cap v).dataCodewords s.len input)
        phase := .packed }

/-- PACK (R95). -/
def execPack (s : State) : Host.Outcome State Fault Refusal :=
  guarded .pack s packBody

end Sys2Proof.Machine
end

