-- ==== Sys2Proof/Machine/Matrix.lean ====
section
/-! DEFINITION. The matrix builder (45_matrix.md): functional placement (R111 to R119), format information (R121 to R124)
and data placement (R125 to R131). Coordinates are (row, col) from the top-left corner (R7). -/

namespace Sys2Proof.Machine

/-- The distance of two numbers, `|a − b|`. -/
def dist (a b : Nat) : Nat :=
  (a - b) + (b - a)

/-- The colour of a bit (R110): 1 is dark, 0 is light. -/
def colour (b : Bool) : Cell :=
  if b then .dark else .light

/-! ### Functional placement -/

/-- One finder marker with its separator (R112, R113), top-left cell of the marker at `(r0, c0)`. The offsets `dr` and
`dc` of the pseudocode run from −1 to 7; `i` and `j` are these offsets plus 1, so the centre is at 4. -/
def finderWrites (size r0 c0 : Nat) : List (Nat × Nat × Cell) :=
  (List.range 9).flatMap fun i =>
    (List.range 9).flatMap fun j =>
      if 1 ≤ r0 + i ∧ 1 ≤ c0 + j ∧ r0 + i - 1 < size ∧ c0 + j - 1 < size then
        [(r0 + i - 1, c0 + j - 1,
          colour (decide (1 ≤ i ∧ i ≤ 7 ∧ 1 ≤ j ∧ j ≤ 7 ∧ max (dist i 4) (dist j 4) ≠ 2)))]
      else []

/-- The top-left cells of the three finder markers (R113). -/
def finderCorners (size : Nat) : List (Nat × Nat) :=
  [(0, 0), (0, size - 7), (size - 7, 0)]

/-- One alignment marker centred at `(r0, c0)` (R114); `i` and `j` are the offsets plus 2. -/
def alignmentWrites (r0 c0 : Nat) : List (Nat × Nat × Cell) :=
  (List.range 5).flatMap fun i =>
    (List.range 5).map fun j =>
      (r0 + i - 2, c0 + j - 2, colour (decide (max (dist i 2) (dist j 2) ≠ 1)))

/-- The candidate centres (R115): every pair, the row in the outer loop. -/
def alignmentCandidates (ac : List Nat) : List (Nat × Nat) :=
  ac.flatMap fun r => ac.map fun c => (r, c)

/-- One candidate (R115): the whole marker is skipped when its centre cell is assigned already. -/
def placeAlignment (g : Grid) (rc : Nat × Nat) : Grid :=
  if Grid.get g rc.1 rc.2 = some .unassigned then Grid.setAll g (alignmentWrites rc.1 rc.2) else g

/-- The timing patterns (R116): row 6 and column 6 from 8 to size−9, dark where the index is even. -/
def timingWrites (size : Nat) : List (Nat × Nat × Cell) :=
  (List.range (size - 16)).flatMap fun k =>
    [(6, k + 8, colour ((k + 8) % 2 == 0)), (k + 8, 6, colour ((k + 8) % 2 == 0))]

/-- A fresh grid with the three finder markers (R111, R113). -/
def finderGrid (size : Nat) : Grid :=
  (finderCorners size).foldl (fun g rc => Grid.setAll g (finderWrites size rc.1 rc.2)) (Grid.alloc size)

/-- The same with the alignment markers (R115). -/
def alignedGrid (size : Nat) (ac : List Nat) : Grid :=
  (alignmentCandidates ac).foldl placeAlignment (finderGrid size)

/-- Functional placement (R119), in the source's order of stamping; the dark module (R117) comes last. -/
def functionalGrid (size : Nat) (ac : List Nat) : Grid :=
  Grid.set (Grid.setAll (alignedGrid size ac) (timingWrites size)) (size - 8) 8 .dark

/-- The body of MFUNC (R119). -/
def mfuncBody (s : State) : Host.Outcome State Fault Refusal :=
  withVersion s fun v =>
    .next { s with grid := functionalGrid v.size (cap v).alignmentCenters, phase := .func }

/-- MFUNC (R119). -/
def execMfunc (s : State) : Host.Outcome State Fault Refusal :=
  guarded .mfunc s mfuncBody

/-! ### Format information -/

/-- The cell of bit i in the first copy (R122). -/
def formatCell1 (i : Nat) : Nat × Nat :=
  if i ≤ 5 then (i, 8)
  else if i = 6 then (7, 8)
  else if i = 7 then (8, 8)
  else if i = 8 then (8, 7)
  else (8, 14 - i)

/-- The cell of bit i in the second copy (R123). -/
def formatCell2 (size i : Nat) : Nat × Nat :=
  if i ≤ 7 then (8, size - 1 - i) else (size - 15 + i, 8)

/-- The 30 writes of R124, bit by bit. -/
def formatWrites (format : BitVec 15) (size : Nat) : List (Nat × Nat × Cell) :=
  (List.range 15).flatMap fun i =>
    [((formatCell1 i).1, (formatCell1 i).2, colour (format.getLsbD i)),
     ((formatCell2 size i).1, (formatCell2 size i).2, colour (format.getLsbD i))]

/-- Format-information placement (R124). -/
def placeFormat (format : BitVec 15) (size : Nat) (g : Grid) : Grid :=
  Grid.setAll g (formatWrites format size)

/-- The body of MFMT (R124). -/
def mfmtBody (s : State) : Host.Outcome State Fault Refusal :=
  withVersion s fun v =>
    withGrid s v.size fun g =>
      .next { s with grid := placeFormat Config.default.format v.size g, phase := .fmt }

/-- MFMT (R124). -/
def execMfmt (s : State) : Host.Outcome State Fault Refusal :=
  guarded .mfmt s mfmtBody

/-! ### Data placement -/

/-- The row a strip visits at its `t`-th place, upward or downward (R125). -/
def stripRow (size : Nat) (up : Bool) (t : Nat) : Nat :=
  if up then size - 1 - t else t

/-- One two-column strip (R125): row by row, the right cell first. -/
def strip (size right : Nat) (up : Bool) : List (Nat × Nat) :=
  (List.range size).flatMap fun t => [(stripRow size up t, right), (stripRow size up t, right - 1)]

/-- `if right = 6: right <- 5`, the step over the vertical timing column (R125). -/
def skipTiming (right : Nat) : Nat :=
  if right = 6 then 5 else right

/-- The strips from column `right` leftward (R125), stepping over the timing column 6; `n` bounds the loop. -/
def strips (size : Nat) : Nat → Nat → Bool → List (Nat × Nat)
  | 0, _, _ => []
  | n + 1, right, up =>
    if 1 ≤ right then
      strip size (skipTiming right) up ++ strips size n (skipTiming right - 2) (!up)
    else []

/-- The traversal of R125. -/
def traversal (size : Nat) : List (Nat × Nat) :=
  strips size size (size - 1) true

/-- The mask (R127): 1 where `(row+col) mod 2 == 0`. -/
def mask (r c : Nat) : Bool :=
  (r + c) % 2 == 0

/-- Data placement over the cells still to be visited (R126 to R129); `bits` are the bits not yet consumed. A cell that is
not U is passed over; at a U cell one bit is consumed, or 0 stands for it when the sequence is exhausted. -/
def placeBits : List (Nat × Nat) → List Bool → Grid → Grid
  | [], _, g => g
  | (r, c) :: cells, bits, g =>
    if Grid.get g r c = some .unassigned then
      placeBits cells bits.tail (Grid.set g r c (colour (xor (bits.headD false) (mask r c))))
    else placeBits cells bits g

/-- Data placement (R130): the bits of the codewords, most significant first (R126), along the traversal. -/
def placeData (size : Nat) (codewords : List Byte) (g : Grid) : Grid :=
  placeBits (traversal size) (codewords.flatMap bitsOfByte) g

/-- The body of MDATA (R130). -/
def mdataBody (s : State) : Host.Outcome State Fault Refusal :=
  withVersion s fun v =>
    withBytes .cw s.cw (cap v).totalCodewords fun codewords =>
      withGrid s v.size fun g =>
        .next { s with grid := placeData v.size codewords g, phase := .done }

/-- MDATA (R130). -/
def execMdata (s : State) : Host.Outcome State Fault Refusal :=
  guarded .mdata s mdataBody

end Sys2Proof.Machine
end

