-- ==== Sys2Proof/Machine/Selector.lean ====
section
/-! DEFINITION. The version selector (42_capacity_version.md): R83, VSEL (R84) and its failure (R85). -/

namespace Sys2Proof.Machine

/-- `select_version(len)` (R83): the first version, in increasing order, whose `dataCodewords >= len + 2`. -/
def selectVersion (len : Nat) : Option Version :=
  Version.all.find? fun v => decide (len + 2 ≤ (cap v).dataCodewords)

/-- The body of VSEL (R84, R85): OVF = 1 fails before the length is looked at. -/
def vselBody (s : State) : State :=
  if s.ovf then s.failCapacity
  else match selectVersion s.len.toNat with
    | some v => { s with ver := some v, phase := .selected }
    | none => s.failCapacity

/-- VSEL (R84). -/
def execVsel (s : State) : Host.Outcome State Fault Refusal :=
  guarded .vsel s fun s => .next (vselBody s)

end Sys2Proof.Machine
end

