-- ==== Sys2Proof/Machine/Control.lean ====
section
/-! DEFINITION. The control commands and the composite (46_control_readout.md §1, §2): NOP (R140), CLEAR (R141),
PUSHB (R142), GEN (R150). -/

namespace Sys2Proof.Machine

/-- NOP (R140). -/
def execNop (s : State) : Host.Outcome State Fault Refusal :=
  guarded .nop s fun s => .next s

/-- CLEAR (R141). -/
def execClear (s : State) : Host.Outcome State Fault Refusal :=
  guarded .clear s fun s => .next s.clearCall

/-- The body of PUSHB (R142): at LEN = 255 the byte is dropped and OVF is set; LEN never wraps. -/
def pushbBody (a : Byte) (s : State) : State :=
  if overflows s then { s with ovf := true }
  else { s with inp := Memory.write s.inp s.len.toNat a, len := s.len + 1 }

/-- PUSHB (R142). -/
def execPushb (a : Byte) (s : State) : Host.Outcome State Fault Refusal :=
  guarded (.pushb a) s fun s => .next (pushbBody a s)

/-- The stages after the selection, in order (R150): PACK, ILV, MFUNC, MFMT, MDATA. -/
def stagesBody (s : State) : Host.Outcome State Fault Refusal :=
  andThen (andThen (andThen (andThen (packBody s) ilvBody) mfuncBody) mfmtBody) mdataBody

/-- The body of GEN (R150): the bodies of the six stage commands in order, nothing after a failed selection. -/
def genBody (s : State) : Host.Outcome State Fault Refusal :=
  if (vselBody s).phase = .error then .next (vselBody s) else stagesBody (vselBody s)

/-- GEN (R150). -/
def execGen (s : State) : Host.Outcome State Fault Refusal :=
  guarded .gen s genBody

end Sys2Proof.Machine
end

