-- ==== Sys2Proof/Machine/Readout.lean ====
section
/-! DEFINITION. The readout commands (46_control_readout.md §3): RDSTAT (R151), RDFLT (R152), RDDCW (R153), RDCW (R154),
RDMOD (R155). Each writes RES and nothing else. -/

namespace Sys2Proof.Machine

/-- RDSTAT (R151): `RES <- STATUS`. -/
def execRdstat (s : State) : Host.Outcome State Fault Refusal :=
  guarded .rdstat s fun s => .next (s.writeRes (statusWord s))

/-- RDFLT (R152): `RES <- FINFO`. -/
def execRdflt (s : State) : Host.Outcome State Fault Refusal :=
  guarded .rdflt s fun s => .next (s.writeRes s.finfo)

/-- RDDCW (R153). -/
def execRddcw (a : Byte) (s : State) : Host.Outcome State Fault Refusal :=
  guarded (.rddcw a) s fun s =>
    withVersion s fun v =>
      checkIndex (.rddcw a) s (indexOf a < (cap v).dataCodewords) (readByte .dcw s.dcw a s)

/-- RDCW (R154). -/
def execRdcw (a : Byte) (s : State) : Host.Outcome State Fault Refusal :=
  guarded (.rdcw a) s fun s =>
    withVersion s fun v =>
      checkIndex (.rdcw a) s (indexOf a < (cap v).totalCodewords) (readByte .cw s.cw a s)

/-- RDMOD (R155). -/
def execRdmod (a b : Byte) (s : State) : Host.Outcome State Fault Refusal :=
  guarded (.rdmod a b) s fun s =>
    withVersion s fun v =>
      checkIndex (.rdmod a b) s (indexOf a < v.size ∧ indexOf b < v.size)
        (withGrid s v.size fun g => .next (s.writeRes (moduleValue (Grid.get g (indexOf a) (indexOf b)))))

end Sys2Proof.Machine
end

