-- ==== Sys2Proof/Machine/Dispatch.lean ====
section
/-! DEFINITION. `exec`: one arm per command, each one direct call of the command's own meaning. -/

namespace Sys2Proof.Machine

def exec (i : Instr) (s : State) : Host.Outcome State Fault Refusal :=
  match i with
  | .nop => Sys2Proof.Machine.execNop s
  | .clear => Sys2Proof.Machine.execClear s
  | .pushb a => Sys2Proof.Machine.execPushb a s
  | .gfmul a b => Sys2Proof.Machine.execGfmul a b s
  | .vsel => Sys2Proof.Machine.execVsel s
  | .pack => Sys2Proof.Machine.execPack s
  | .ilv => Sys2Proof.Machine.execIlv s
  | .mfunc => Sys2Proof.Machine.execMfunc s
  | .mfmt => Sys2Proof.Machine.execMfmt s
  | .mdata => Sys2Proof.Machine.execMdata s
  | .gen => Sys2Proof.Machine.execGen s
  | .rdstat => Sys2Proof.Machine.execRdstat s
  | .rdflt => Sys2Proof.Machine.execRdflt s
  | .rddcw a => Sys2Proof.Machine.execRddcw a s
  | .rdcw a => Sys2Proof.Machine.execRdcw a s
  | .rdmod a b => Sys2Proof.Machine.execRdmod a b s

end Sys2Proof.Machine
end

