-- ==== Sys2Proof/Machine/Step.lean ====
section
/-! DEFINITION. One step: one host interaction (R10, R186). With nothing presented the block is idle and keeps all its
state (R173, R182). -/

namespace Sys2Proof.Machine

/-- One step of the machine: the host's next action is a command word, executed to its response, or reset. -/
def step (s : State) : Host.Outcome State Fault Refusal :=
  match s.host with
  | [] => .next s
  | .command w :: rest => runCommand exec w (s.withHost rest)
  | .reset :: rest => .next (applyReset rest)

/-- Let the host present the word `w` (its bits at and above `nbits` zero) next. -/
def State.withFetchWord (s : State) (nbits w : Nat) : State :=
  s.presentFirst (BitVec.ofNat 32 (w % 2 ^ nbits))

end Sys2Proof.Machine
end

