-- ==== Sys2Proof/Safety.lean ====
section
/-! DEFINITION. What a safe state is: the invariant that ties every piece of per-call state to the phase and the input
of the call (10_state.md, R12 to R19) and the fault record to its cause (R20, R21). It is the exact shape of the states
the spec's rules produce; the two faults of `Machine.Fault` cannot be raised in it (R26). -/

namespace Sys2Proof.Machine

/-- A buffer that holds exactly the given bytes, from index 0 on (R15, R17, R18). -/
def Memory.ofBytes (bs : List Byte) : Memory :=
  Memory.store [] 0 bs

/-- The phases in which a version is selected (R12, R16). -/
def Phase.hasVersion : Phase → Bool
  | .load | .error => false
  | .selected | .packed | .coded | .func | .fmt | .done => true

/-- The phases in which DCW is valid (R12, R17). -/
def Phase.hasData : Phase → Bool
  | .load | .error | .selected => false
  | .packed | .coded | .func | .fmt | .done => true

/-- The phases in which CW is valid (R12, R18). -/
def Phase.hasCodewords : Phase → Bool
  | .load | .error | .selected | .packed => false
  | .coded | .func | .fmt | .done => true

/-- What PACK makes of an input (R95). -/
def dataOf (v : Version) (input : List Byte) : List Byte :=
  dataCodewords (cap v).dataCodewords (BitVec.ofNat 8 input.length) input

/-- What ILV makes of it (R103). -/
def codewordsOf (v : Version) (input : List Byte) : List Byte :=
  (finalCodewords (cap v) (dataOf v input)).take (cap v).totalCodewords

/-- The grid after MFUNC (R119): it depends on the version only. -/
def funcGridOf (v : Version) : Grid :=
  functionalGrid v.size (cap v).alignmentCenters

/-- The grid after MFMT (R124). -/
def fmtGridOf (v : Version) : Grid :=
  placeFormat Config.default.format v.size (funcGridOf v)

/-- The grid after MDATA (R130). -/
def symbolOf (v : Version) (input : List Byte) : Grid :=
  placeData v.size (codewordsOf v input) (fmtGridOf v)

/-- The grid a phase holds. -/
def gridIn (p : Phase) (v : Version) (input : List Byte) : Grid :=
  match p with
  | .load | .error | .selected | .packed | .coded => []
  | .func => funcGridOf v
  | .fmt => fmtGridOf v
  | .done => symbolOf v input

/-- What DCW, CW and GRID hold in a state whose selected version is `v`. -/
structure StageInv (s : State) (v : Version) (input : List Byte) : Prop where
  dcw_eq : s.dcw = if s.phase.hasData then Memory.ofBytes (dataOf v input) else []
  cw_eq : s.cw = if s.phase.hasCodewords then Memory.ofBytes (codewordsOf v input) else []
  grid_eq : s.grid = gridIn s.phase v input

/-- The per-call state belongs to a call whose input so far is `input`. -/
structure CallInv (s : State) (input : List Byte) : Prop where
  /-- LEN counts the input bytes (R15). -/
  len_eq : s.len.toNat = input.length
  /-- IN holds them and nothing else (R15, R26). -/
  inp_eq : s.inp = Memory.ofBytes input
  /-- OVF is set only when the buffer is full (R142). -/
  ovf_full : s.ovf = true → input.length = 255
  /-- VER is the selector's choice once a version is selected (R16, R84). -/
  ver_eq : s.ver = if s.phase.hasVersion then selectVersion input.length else none
  /-- A version is selected only for an input that fits (R84). -/
  fits : s.phase.hasVersion = true → s.ovf = false ∧ ∃ v, selectVersion input.length = some v
  /-- ERROR has no other meaning than CapacityExceeded (R161). -/
  error_only : s.phase = .error → s.ovf = true ∨ selectVersion input.length = none
  /-- With a version, the buffers and the grid hold what their stages made (R17 to R19). -/
  stage : ∀ v, s.ver = some v → StageInv s v input
  /-- Without one, they hold no value (R25, R141, R167). -/
  empty : s.ver = none → s.dcw = [] ∧ s.cw = [] ∧ s.grid = []

/-- An IndexRange word: a read command with an index that some version does not have (R164). -/
def indexRangeWord (w : Word) : Prop :=
  ∃ v : Version,
    (∃ a : Byte, w = encode (.rddcw a) ∧ (cap v).dataCodewords ≤ a.toNat) ∨
    (∃ a : Byte, w = encode (.rdcw a) ∧ (cap v).totalCodewords ≤ a.toNat) ∨
    (∃ a b : Byte, w = encode (.rdmod a b) ∧ (v.size ≤ a.toNat ∨ v.size ≤ b.toNat))

/-- The fault record tells its cause (R21, R162 to R164). -/
def RecordInv (s : State) : Prop :=
  match s.flt with
  | .none => s.finfo = 0
  | .illegalCommand => ∃ e, decode s.finfo = .error e
  | .sequenceError => ∃ i p, s.finfo = encode i ∧ legal i p = false
  | .indexRange => indexRangeWord s.finfo

/-- The invariant of QRGEN. -/
def State.Inv (s : State) : Prop :=
  (∃ input, CallInv s input) ∧ RecordInv s

end Sys2Proof.Machine
end

