-- ==== Sys2Proof/Certificates/Slice0/Obligations.lean ====
section
/-! DEFINITION. The statements for the provers, each from numbered rules of the spec. The vocabulary of the first section
(the legality table, the positions of the patterns, the closed form of PACK) is written from the rules and apart from
the definitions of the machine. -/

namespace Sys2Proof.Claims

open Sys2Proof.Machine

/-! ### Vocabulary of the statements -/

/-- The rows of the table of R56: the phases in which a command is legal. -/
def legalPhases : Instr → List Phase
  | .nop | .clear | .gfmul _ _ | .rdstat | .rdflt =>
    [.load, .selected, .packed, .coded, .func, .fmt, .done, .error]
  | .pushb _ | .vsel | .gen => [.load]
  | .pack => [.selected]
  | .ilv => [.packed]
  | .mfunc => [.coded]
  | .mfmt => [.func]
  | .mdata => [.fmt]
  | .rddcw _ => [.packed, .coded, .func, .fmt, .done]
  | .rdcw _ => [.coded, .func, .fmt, .done]
  | .rdmod _ _ => [.done]

/-- The state with a fault recorded as R166 says: in FLT and FINFO if no fault was recorded before, and nothing else. -/
def recorded (s : State) (code : FaultCode) (cmd : Word) : State :=
  { s with
    flt := if s.flt = .none then code else s.flt
    finfo := if s.flt = .none then cmd else s.finfo }

/-- The answer of the block to a word that raises IllegalCommand: the fault record and the response. -/
def answeredIllegal (s : State) (w : Word) (rest : List HostAction) : State :=
  { recorded s .illegalCommand w with rsp := some s.res, host := rest }

/-- The causes of IndexRange (R164): the command addresses an element that version `v` does not have. -/
def indexBeyond (v : Version) : Instr → Prop
  | .rddcw a => (cap v).dataCodewords ≤ a.toNat
  | .rdcw a => (cap v).totalCodewords ≤ a.toNat
  | .rdmod a b => v.size ≤ a.toNat ∨ v.size ≤ b.toNat
  | .nop | .clear | .pushb _ | .gfmul _ _ | .vsel | .pack | .ilv | .mfunc | .mfmt | .mdata | .gen | .rdstat | .rdflt => False

/-- The commands that write RES (R22). -/
def producesResult : Instr → Bool
  | .gfmul _ _ | .rdstat | .rdflt | .rddcw _ | .rdcw _ | .rdmod _ _ => true
  | .nop | .clear | .pushb _ | .vsel | .pack | .ilv | .mfunc | .mfmt | .mdata | .gen => false

/-- The phase changes the command rules allow (R12): from, to. -/
def phaseMoves : Instr → List (Phase × Phase)
  | .vsel => [(.load, .selected), (.load, .error)]
  | .pack => [(.selected, .packed)]
  | .ilv => [(.packed, .coded)]
  | .mfunc => [(.coded, .func)]
  | .mfmt => [(.func, .fmt)]
  | .mdata => [(.fmt, .done)]
  | .gen => [(.load, .done), (.load, .error)]
  | .clear => [(.selected, .load), (.packed, .load), (.coded, .load), (.func, .load), (.fmt, .load), (.done, .load),
      (.error, .load)]
  | .nop | .pushb _ | .gfmul _ _ | .rdstat | .rdflt | .rddcw _ | .rdcw _ | .rdmod _ _ => []

/-- The closed form of R95: the byte of DCW at index `i` for an input of `input.length` bytes. -/
def packedByte (input : List Byte) (i : Nat) : Byte :=
  let n := input.length
  if i = 0 then 0x40 ||| BitVec.ofNat 8 (n / 16)
  else if i ≤ n + 1 then
    let before := if i = 1 then BitVec.ofNat 8 n else input.getD (i - 2) 0
    ((before &&& 0x0F) <<< 4) ||| (input.getD (i - 1) 0 >>> 4)
  else if (i - (n + 2)) % 2 = 0 then 0xEC else 0x11

/-- The cells of the finder marker whose top-left cell is `(r0, c0)` and of its separator (R112, R113): dark but for the
inner ring and the border. -/
def finderCell (r0 c0 : Int) (r c : Nat) : Cell :=
  let dr := (r : Int) - r0
  let dc := (c : Int) - c0
  let m := max (dr - 3).natAbs (dc - 3).natAbs
  if m ≤ 1 ∨ m = 3 then .dark else .light

/-- The cell at `(r, c)` after functional placement, by position (R111 to R118). -/
def functionalCell (v : Version) (r c : Nat) : Cell :=
  let size := v.size
  if r ≤ 7 ∧ c ≤ 7 then finderCell 0 0 r c
  else if r ≤ 7 ∧ size - 8 ≤ c then finderCell 0 ((size : Int) - 7) r c
  else if size - 8 ≤ r ∧ c ≤ 7 then finderCell ((size : Int) - 7) 0 r c
  else if v ≠ .v1 ∧ size - 9 ≤ r ∧ r ≤ size - 5 ∧ size - 9 ≤ c ∧ c ≤ size - 5 then
    let m := max ((r : Int) - (size - 7 : Nat)).natAbs ((c : Int) - (size - 7 : Nat)).natAbs
    if m = 1 then .light else .dark
  else if r = 6 then (if c % 2 = 0 then .dark else .light)
  else if c = 6 then (if r % 2 = 0 then .dark else .light)
  else if r = size - 8 ∧ c = 8 then .dark
  else .unassigned

/-- The cells of the first format copy, bit 0 first (the table of R122). -/
def formatCopy1 : List (Nat × Nat) :=
  [(0, 8), (1, 8), (2, 8), (3, 8), (4, 8), (5, 8), (7, 8), (8, 8), (8, 7), (8, 5), (8, 4), (8, 3), (8, 2), (8, 1), (8, 0)]

/-- The cells of the second format copy, bit 0 first (R123). -/
def formatCopy2 (size : Nat) : List (Nat × Nat) :=
  [(8, size - 1), (8, size - 2), (8, size - 3), (8, size - 4), (8, size - 5), (8, size - 6), (8, size - 7), (8, size - 8),
   (size - 7, 8), (size - 6, 8), (size - 5, 8), (size - 4, 8), (size - 3, 8), (size - 2, 8), (size - 1, 8)]

/-- The colours of the bits of 0x77C4, bit 0 first (R121). -/
def formatColours : List Cell :=
  [.light, .light, .dark, .light, .light, .light, .dark, .dark, .dark, .dark, .dark, .light, .dark, .dark, .dark]

/-- The number of U cells of a grid. -/
def unassignedCount (g : Grid) : Nat :=
  (g.map fun row => row.count .unassigned).sum

/-- The cells of a traversal that are U in a grid, in traversal order: those that consume a bit (R126). -/
def freeCells (g : Grid) (cells : List (Nat × Nat)) : List (Nat × Nat) :=
  cells.filter fun rc => Grid.get g rc.1 rc.2 == some .unassigned

/-- The cell at place `2*t + b` of strip number `q` of the zigzag (R125): strips of two columns from the right edge leftward,
one column further left from column 6 on; even strips upward, odd strips downward; the right cell (`b = 0`) first. -/
def zigzagCell (size q t b : Nat) : Nat × Nat :=
  let right := size - 1 - 2 * q
  (if q % 2 = 0 then size - 1 - t else t, (if right ≤ 6 then right - 1 else right) - b)

/-- Bit number `k` of the codeword sequence, 0 when it is exhausted (R126, R129). -/
def codewordBit (codewords : List Byte) (k : Nat) : Bool :=
  (codewords.getD (k / 8) 0).getLsbD (7 - k % 8)

/-- The colour of the `k`-th free cell, `(r, c)` (R127 to R129). -/
def dataCell (codewords : List Byte) (k : Nat) (rc : Nat × Nat) : Cell :=
  if xor (codewordBit codewords k) (decide ((rc.1 + rc.2) % 2 = 0)) then .dark else .light

/-- The remainder of a polynomial over GF(2) of degree at most 14 by the check polynomial 0x537 (R121). -/
def checkRemainder (x : Nat) : Nat :=
  [4, 3, 2, 1, 0].foldl (fun x k => if x.testBit (k + 10) then x ^^^ (0x537 <<< k) else x) x

/-- The buffer reads as the given bytes from index 0 on. -/
def holds (m : Memory) (bs : List Byte) : Prop :=
  ∀ i, i < bs.length → Memory.read m i = bs[i]?

end Sys2Proof.Claims

open Sys2Proof Sys2Proof.Machine Sys2Proof.Claims

/-! ### Encoding -/

/-- R45 to R47, R52, R53: a word decodes to a command exactly when it is that command's word, so decode of encode is the
command at every operand value and no two commands share a word. -/
def Obligations.DecodeInvertsEncode : Prop :=
  ∀ (w : Word) (i : Instr), decode w = .ok i ↔ w = encode i

/-- R52: a word `cmd` selects a row exactly when `cmd and mask = match`; the operand fields are the bits outside the mask. -/
def Obligations.MaskAndMatchSelectRow : Prop :=
  ∀ w : Word,
    (decode w = .ok .nop ↔ w &&& 0xFFFFFFFF = 0x00000000) ∧
    (decode w = .ok .clear ↔ w &&& 0xFFFFFFFF = 0x01000000) ∧
    (∀ a, decode w = .ok (.pushb a) ↔ w &&& 0xFF00FFFF = 0x02000000 ∧ a = w.extractLsb' 16 8) ∧
    (∀ a b, decode w = .ok (.gfmul a b) ↔
      w &&& 0xFF0000FF = 0x03000000 ∧ a = w.extractLsb' 16 8 ∧ b = w.extractLsb' 8 8) ∧
    (decode w = .ok .vsel ↔ w &&& 0xFFFFFFFF = 0x04000000) ∧
    (decode w = .ok .pack ↔ w &&& 0xFFFFFFFF = 0x05000000) ∧
    (decode w = .ok .ilv ↔ w &&& 0xFFFFFFFF = 0x06000000) ∧
    (decode w = .ok .mfunc ↔ w &&& 0xFFFFFFFF = 0x07000000) ∧
    (decode w = .ok .mfmt ↔ w &&& 0xFFFFFFFF = 0x08000000) ∧
    (decode w = .ok .mdata ↔ w &&& 0xFFFFFFFF = 0x09000000) ∧
    (decode w = .ok .gen ↔ w &&& 0xFFFFFFFF = 0x0A000000) ∧
    (decode w = .ok .rdstat ↔ w &&& 0xFFFFFFFF = 0x10000000) ∧
    (decode w = .ok .rdflt ↔ w &&& 0xFFFFFFFF = 0x11000000) ∧
    (∀ a, decode w = .ok (.rddcw a) ↔ w &&& 0xFF00FFFF = 0x12000000 ∧ a = w.extractLsb' 16 8) ∧
    (∀ a, decode w = .ok (.rdcw a) ↔ w &&& 0xFF00FFFF = 0x13000000 ∧ a = w.extractLsb' 16 8) ∧
    (∀ a b, decode w = .ok (.rdmod a b) ↔
      w &&& 0xFF0000FF = 0x14000000 ∧ a = w.extractLsb' 16 8 ∧ b = w.extractLsb' 8 8)

/-- R47: the operands of a decoded command are the bits 23:16 and 15:8 of its word as they stand. -/
def Obligations.OperandsAreWordFields : Prop :=
  ∀ (w : Word) (a b : Byte),
    (decode w = .ok (.pushb a) → a.toNat = w.toNat / 2 ^ 16 % 256) ∧
    (decode w = .ok (.rddcw a) → a.toNat = w.toNat / 2 ^ 16 % 256) ∧
    (decode w = .ok (.rdcw a) → a.toNat = w.toNat / 2 ^ 16 % 256) ∧
    (decode w = .ok (.gfmul a b) → a.toNat = w.toNat / 2 ^ 16 % 256 ∧ b.toNat = w.toNat / 2 ^ 8 % 256) ∧
    (decode w = .ok (.rdmod a b) → a.toNat = w.toNat / 2 ^ 16 % 256 ∧ b.toNat = w.toNat / 2 ^ 8 % 256)

/-- R50, R162, R166, R169: a word with a reserved opcode raises IllegalCommand whatever its other bits and the phase
are; no other effect. (How a word stands before the block and where the response stays are the model's: log entries 1, 3.) -/
def Obligations.ReservedOpcodeRaisesIllegalCommand : Prop :=
  ∀ (s : State) (w : Word) (rest : List HostAction), s.host = .command w :: rest →
    (0x0B ≤ w.toNat / 2 ^ 24 ∧ w.toNat / 2 ^ 24 ≤ 0x0F ∨ 0x15 ≤ w.toNat / 2 ^ 24) →
    step s = .next (answeredIllegal s w rest)

/-- R51, R46, R162, R166, R169: a non-zero field that the format does not use, or a non-zero Z, raises IllegalCommand; no
other effect. (The host's list and the response field are the model's: log entries 1, 3.) -/
def Obligations.NonzeroUnusedFieldRaisesIllegalCommand : Prop :=
  ∀ (s : State) (w : Word) (rest : List HostAction), s.host = .command w :: rest →
    (w.toNat % 256 ≠ 0 ∨
      (w.toNat / 2 ^ 8 % 256 ≠ 0 ∧ w.toNat / 2 ^ 24 ≠ 0x03 ∧ w.toNat / 2 ^ 24 ≠ 0x14) ∨
      (w.toNat / 2 ^ 16 % 256 ≠ 0 ∧ w.toNat / 2 ^ 24 ≠ 0x02 ∧ w.toNat / 2 ^ 24 ≠ 0x03 ∧ w.toNat / 2 ^ 24 ≠ 0x12 ∧
        w.toNat / 2 ^ 24 ≠ 0x13 ∧ w.toNat / 2 ^ 24 ≠ 0x14)) →
    step s = .next (answeredIllegal s w rest)

/-- R49 steps 1 and 2: the decoder accepts exactly the well-formed words, and says which check a word fails. -/
def Obligations.DecoderAcceptsWellFormedWords : Prop :=
  ∀ w : Word,
    ((∃ i, decode w = .ok i) ↔ (fields w).wellFormed = true) ∧
    (decode w = .error .reservedOpcode ↔ opcodeReserved (fields w).op = true) ∧
    (decode w = .error .reservedField ↔
      opcodeReserved (fields w).op = false ∧ (fields w).unusedZero (formatOfOpcode (fields w).op) = false)

/-- R54 and R52: a few command words written out from the encoding. -/
def Obligations.SampleWordsDecode : Prop :=
  decode 0x0353CA00 = .ok (.gfmul 0x53 0xCA) ∧ decode 0x02410000 = .ok (.pushb 0x41) ∧
  decode 0x14080000 = .ok (.rdmod 8 0) ∧ decode 0x0A000000 = .ok .gen ∧
  decode 0x13190000 = .ok (.rdcw 25) ∧ decode 0x10000000 = .ok .rdstat ∧
  decode 0x0B000000 = .error .reservedOpcode ∧ decode 0x04000100 = .error .reservedField

/-! ### Steps, reset and the host -/

/-- R10, R49, R186: when the host presents a word that decodes to a command, the step is that command's execution,
answered with RES as it stands after it. (The host's list and the response field are the model's: log entries 1, 3.) -/
def Obligations.StepRunsDecodedCommand : Prop :=
  ∀ (s : State) (w : Word) (rest : List HostAction) (i : Instr),
    s.host = .command w :: rest → decode w = .ok i →
    step s = andThen (exec i { s with host := rest }) fun t => .next { t with rsp := some t.res }

/-- R48: the response to every command, faulting ones included, is RES as it stands after the command, and the block
has taken exactly that command from the host. (That the response stays in a field, and the host's list, are the model's:
log entries 1, 3.) -/
def Obligations.ResponseIsResult : Prop :=
  ∀ (s t : State) (w : Word) (rest : List HostAction),
    s.host = .command w :: rest → step s = .next t → t.rsp = some t.res ∧ t.host = rest

/-- R180, R25: reset puts every piece of state to its reset value, and the host gets nothing back. That what the host does
afterwards is kept, and that "nothing" is the value none of the response field, are the model's (log entries 1, 3). -/
def Obligations.ResetActionRestoresResetState : Prop :=
  ∀ (s : State) (rest : List HostAction), s.host = .reset :: rest →
    ∃ t, step s = .next t ∧ t.phase = .load ∧ t.len = 0 ∧ t.ovf = false ∧ t.ver = none ∧ t.flt = .none ∧ t.finfo = 0 ∧
      t.res = 0 ∧ (∀ i, Memory.read t.inp i = none ∧ Memory.read t.dcw i = none ∧ Memory.read t.cw i = none) ∧
      (∀ r c, Grid.get t.grid r c = none) ∧ t.rsp = none ∧ t.host = rest

/-- R173, R182: with no action of the host the block is idle and keeps all its state (the model's convention, log
entry 2). -/
def Obligations.IdleKeepsState : Prop :=
  ∀ s : State, s.host = [] → step s = .next s

/-- The reset state meets the invariant (R25; its form of "no value" is the model's, log entry 5). -/
def Obligations.ResetMeetsInvariant : Prop :=
  State.reset.Inv

/-- Every step keeps the invariant (R12 to R21, R26): the buffers and the grid hold exactly what the stages made of the
input, and the fault record tells its cause. (The form of "no value" is the model's: log entry 5.) -/
def Obligations.StepKeepsInvariant : Prop :=
  ∀ s t : State, s.Inv → step s = .next t → t.Inv

/-- R26, R186: in every state that meets the invariant a step answers with a next state, so a response always arrives
and no location without a value is ever read. -/
def Obligations.StepNeverStops : Prop :=
  ∀ s : State, s.Inv → ∃ t, step s = .next t

/-! ### Whole-machine rules -/

/-- R56 (with R49 step 3, R163, R166, R169): a command outside its legal phases raises SequenceError and does nothing else;
in a legal phase it never raises SequenceError. -/
def Obligations.IllegalPhaseRaisesSequenceError : Prop :=
  ∀ (i : Instr) (s : State),
    (s.phase ∉ legalPhases i → exec i s = .next (recorded s .sequenceError (encode i))) ∧
    (s.phase ∈ legalPhases i → ∀ t, exec i s = .next t → t.flt = .sequenceError → s.flt = .sequenceError)

/-- R12: PHASE moves only as the command rules say. -/
def Obligations.PhaseMovesAsCommanded : Prop :=
  ∀ (i : Instr) (s t : State), exec i s = .next t → t.phase = s.phase ∨ (s.phase, t.phase) ∈ phaseMoves i

/-- R22: only the result-producing commands write RES, and no command that records a fault does. -/
def Obligations.ResultWrittenByReadersOnly : Prop :=
  ∀ (i : Instr) (s t : State), exec i s = .next t →
    (producesResult i = false → t.res = s.res) ∧ (t.flt ≠ s.flt → t.res = s.res)

/-- R169, R20, R21: once a fault is recorded, no command changes FLT or FINFO, and a word that would raise one of the three
protocol faults (an illegal word, a command out of phase, an index out of range) changes nothing at all. (The host's list and the response
field are the model's: log entries 1, 3.) -/
def Obligations.FirstFaultIsKept : Prop :=
  ∀ (s t : State) (w : Word) (rest : List HostAction), s.host = .command w :: rest → s.flt ≠ .none → step s = .next t →
    t.flt = s.flt ∧ t.finfo = s.finfo ∧
    ((∀ i, decode w = .ok i → s.phase ∉ legalPhases i) → t = { s with rsp := some s.res, host := rest }) ∧
    (∀ i v, decode w = .ok i → s.phase ∈ legalPhases i → s.ver = some v → indexBeyond v i →
      t = { s with rsp := some s.res, host := rest })

/-- No command touches the host's side of the port: a frame over the model's own fields `host` and `rsp` (log entries 1, 3),
for which R10 and R186 only say that the host acts between commands and is answered after them. -/
def Obligations.CommandsLeaveHostPort : Prop :=
  ∀ (i : Instr) (s t : State), exec i s = .next t → t.host = s.host ∧ t.rsp = s.rsp

/-- R15, R30: IN, LEN and OVF are written by PUSHB and CLEAR only; DCW by PACK, CW by ILV, GRID by the matrix commands,
VER by VSEL, each of them by GEN and CLEAR too. -/
def Obligations.EachBufferHasItsWriters : Prop :=
  ∀ (i : Instr) (s t : State), exec i s = .next t →
    (i ≠ .clear → (∀ a, i ≠ .pushb a) → t.inp = s.inp ∧ t.len = s.len ∧ t.ovf = s.ovf) ∧
    (i ≠ .clear → i ≠ .gen → i ≠ .pack → t.dcw = s.dcw) ∧
    (i ≠ .clear → i ≠ .gen → i ≠ .ilv → t.cw = s.cw) ∧
    (i ≠ .clear → i ≠ .gen → i ≠ .mfunc → i ≠ .mfmt → i ≠ .mdata → t.grid = s.grid) ∧
    (i ≠ .clear → i ≠ .gen → i ≠ .vsel → t.ver = s.ver)

/-- Every step keeps the buffers in canonical form, indices strictly rising. The form is the model's representation of the
index spaces (log entry 5). -/
def Obligations.BuffersStayCanonical : Prop :=
  ∀ s t : State, Memory.wf s.inp ∧ Memory.wf s.dcw ∧ Memory.wf s.cw → step s = .next t →
    Memory.wf t.inp ∧ Memory.wf t.dcw ∧ Memory.wf t.cw

/-! ### Field arithmetic -/

/-- R60: the EXP table starts at 1, doubles with reduction by 0x11D, and repeats its first 255 entries. -/
def Obligations.ExpTableByDoubling : Prop :=
  expEntry 0 = 1 ∧
  (∀ i : Fin 254, (expEntry ⟨i.val + 1, by omega⟩).toNat
    = if (expEntry ⟨i.val, by omega⟩).toNat * 2 < 256 then (expEntry ⟨i.val, by omega⟩).toNat * 2
      else (expEntry ⟨i.val, by omega⟩).toNat * 2 ^^^ 0x11D) ∧
  (∀ i : Fin 257, expEntry ⟨i.val + 255, by omega⟩ = expEntry ⟨i.val, by omega⟩)

/-- R61: `EXP[LOG[a]] = a` for every non-zero a, `LOG[EXP[i]] = i` for i in 0..254, and no entry of EXP is zero. -/
def Obligations.LogInvertsExp : Prop :=
  (∀ (a : Byte) (h : a ≠ 0), expEntry ⟨(logOf a h).val, by have := (logOf a h).isLt; omega⟩ = a) ∧
  (∀ i : Fin 255, ∃ h : expEntry ⟨i.val, by omega⟩ ≠ 0, logOf (expEntry ⟨i.val, by omega⟩) h = i)

/-- R65: the table product is the polynomial product reduced by 0x11D, for all operand pairs. -/
def Obligations.TableProductIsPolynomialProduct : Prop :=
  ∀ a b : Byte, gfmul a b = clmul a b

/-- R64: the laws of the field. -/
def Obligations.FieldLaws : Prop :=
  (∀ a b : Byte, gfmul a b = gfmul b a) ∧
  (∀ a : Byte, gfmul a 1 = a ∧ gfmul a 0 = 0) ∧
  (∀ a b c : Byte, gfmul (gfmul a b) c = gfmul a (gfmul b c)) ∧
  (∀ a b c : Byte, gfmul a (b ^^^ c) = gfmul a b ^^^ gfmul a c) ∧
  (∀ a b : Byte, a ≠ 0 → b ≠ 0 → gfmul a b ≠ 0) ∧
  (∀ (a : Byte) (h : a ≠ 0), ∀ b : Byte,
    gfmul a b = 1 ↔ b = expEntry ⟨255 - (logOf a h).val, by omega⟩) ∧
  (∀ a : Byte, (gfmul 2 a).toNat = if a.toNat * 2 < 256 then a.toNat * 2 else a.toNat * 2 ^^^ 0x11D)

/-- R67, R62: GFMUL completes in every phase; it leaves the product in RES, zero-extended, and touches nothing else. -/
def Obligations.GfmulWritesProduct : Prop :=
  ∀ (a b : Byte) (s : State), ∃ p : Byte,
    exec (.gfmul a b) s = .next { s with res := p.setWidth 32 } ∧
    (a = 0 ∨ b = 0 → p = 0) ∧
    (∀ (ha : a ≠ 0) (hb : b ≠ 0), p = expEntry ⟨(logOf a ha).val + (logOf b hb).val, by
      have := (logOf a ha).isLt; have := (logOf b hb).isLt; omega⟩)

/-! ### Error correction -/

/-- R70: the generator polynomial of degree n has n+1 coefficients, is monic, ends in `EXP[(n(n−1)/2) mod 255]`, and has
the roots `α^0` to `α^(n−1)`. (Exponents from 512 on: log entry 13.) -/
def Obligations.GeneratorPolynomialShape : Prop :=
  ∀ n : Nat, 1 ≤ n →
    (genpoly n).length = n + 1 ∧ (genpoly n).head? = some 1 ∧
    (genpoly n).getLast? = some (expEntry ⟨n * (n - 1) / 2 % 255, by omega⟩) ∧
    ∀ i, i < n → polyEval (alphaPow i) (genpoly n) = 0

/-- R73: the generator polynomials of the six versions. -/
def Obligations.GeneratorPolynomialsListed : Prop :=
  genpoly 7 = [0x01, 0x7F, 0x7A, 0x9A, 0xA4, 0x0B, 0x44, 0x75] ∧
  genpoly 10 = [0x01, 0xD8, 0xC2, 0x9F, 0x6F, 0xC7, 0x5E, 0x5F, 0x71, 0x9D, 0xC1] ∧
  genpoly 15 = [0x01, 0x1D, 0xC4, 0x6F, 0xA3, 0x70, 0x4A, 0x0A, 0x69, 0x69, 0x8B, 0x84, 0x97, 0x20, 0x86, 0x1A] ∧
  genpoly 18 = [0x01, 0xEF, 0xFB, 0xB7, 0x71, 0x95, 0xAF, 0xC7, 0xD7, 0xF0, 0xDC, 0x49, 0x52, 0xAD, 0x4B, 0x20, 0x43,
    0xD9, 0x92] ∧
  genpoly 20 = [0x01, 0x98, 0xB9, 0xF0, 0x05, 0x6F, 0x63, 0x06, 0xDC, 0x70, 0x96, 0x45, 0x24, 0xBB, 0x16, 0xE4, 0xC6,
    0x79, 0x79, 0xA5, 0xAE] ∧
  genpoly 26 = [0x01, 0xF6, 0x33, 0xB7, 0x04, 0x88, 0x62, 0xC7, 0x98, 0x4D, 0x38, 0xCE, 0x18, 0x91, 0x28, 0xD1, 0x75,
    0xE9, 0x2A, 0x87, 0x44, 0x46, 0x90, 0x92, 0x4D, 0x2B, 0x5E]

/-- R72: the data followed by its EC bytes is a multiple of the generator: all n syndromes are zero.
(Exponents from 512 on: log entry 13.) -/
def Obligations.SyndromesVanish : Prop :=
  ∀ (data : List Byte) (n i : Nat), 1 ≤ n → i < n → polyEval (alphaPow i) (data ++ rsEncode data n) = 0

/-- R71, R72: the encoder returns n bytes and is linear for data of equal length; zero data gives zero bytes. -/
def Obligations.EncoderIsLinear : Prop :=
  ∀ (d e : List Byte) (n : Nat), 1 ≤ n → d.length = e.length →
    (rsEncode d n).length = n ∧
    rsEncode (List.zipWith (· ^^^ ·) d e) n = List.zipWith (· ^^^ ·) (rsEncode d n) (rsEncode e n) ∧
    rsEncode (List.replicate d.length 0) n = List.replicate n 0

/-! ### Capacity and version selection -/

/-- R80, R81: the values of the capacity table, and its invariant. -/
def Obligations.CapacityTableValues : Prop :=
  (∀ v : Version, (cap v).totalCodewords
    = (cap v).dataCodewords + (cap v).ecCodewordsPerBlock * (cap v).blockCount.toNat) ∧
  (Version.all.map fun v => (v.size, (cap v).totalCodewords, (cap v).dataCodewords, (cap v).ecCodewordsPerBlock,
      (cap v).blockCount.toNat, (cap v).alignmentCenters))
    = [(21, 26, 19, 7, 1, []), (25, 44, 34, 10, 1, [6, 18]), (29, 70, 55, 15, 1, [6, 22]), (33, 100, 80, 20, 1, [6, 26]),
       (37, 134, 108, 26, 1, [6, 30]), (41, 172, 136, 18, 2, [6, 34])]

/-- R83: the selector returns the first version whose data codewords hold the input and 2 bytes more; with the table of
R81, by length. -/
def Obligations.SelectorTakesFirstFit : Prop :=
  ∀ len : Nat,
    selectVersion len = (if len ≤ 17 then some .v1 else if len ≤ 32 then some .v2 else if len ≤ 53 then some .v3
      else if len ≤ 78 then some .v4 else if len ≤ 106 then some .v5 else if len ≤ 134 then some .v6 else none) ∧
    (∀ v, selectVersion len = some v → len + 2 ≤ (cap v).dataCodewords ∧
      ∀ u : Version, u.number < v.number → (cap u).dataCodewords < len + 2) ∧
    (selectVersion len = none → ∀ v, (cap v).dataCodewords < len + 2)

/-- R84: VSEL in LOAD with an input that fits writes VER and PHASE and nothing else. -/
def Obligations.VselSelectsVersion : Prop :=
  ∀ s : State, s.phase = .load → s.ovf = false → s.len.toNat ≤ 134 →
    ∃ v, exec .vsel s = .next { s with ver := some v, phase := .selected } ∧
      s.len.toNat + 2 ≤ (cap v).dataCodewords ∧
      ∀ u : Version, u.number < v.number → (cap u).dataCodewords < s.len.toNat + 2

/-- R85, R161, R167: VSEL or GEN with OVF = 1 or LEN ≥ 135 ends in CapacityExceeded: VER is 0, PHASE is ERROR, and
nothing else changes; with an input that fits neither ends so. -/
def Obligations.CapacityExceededEntry : Prop :=
  ∀ s : State, s.phase = .load →
    (s.ovf = true ∨ 135 ≤ s.len.toNat →
      exec .vsel s = .next { s with ver := none, phase := .error } ∧
      exec .gen s = .next { s with ver := none, phase := .error }) ∧
    (s.ovf = false → s.len.toNat ≤ 134 → ∀ t, (exec .vsel s = .next t ∨ exec .gen s = .next t) → t.phase ≠ .error)

/-! ### Bitstream -/

/-- R95 (with R90 to R94, R96, R97): PACK completes; it writes exactly the data codewords of the closed form and PHASE, every
index of DCW beyond them reads as before, and nothing else changes. -/
def Obligations.PackBuildsDataCodewords : Prop :=
  ∀ (s : State) (v : Version) (input : List Byte), s.phase = .selected → s.ver = some v →
    s.len.toNat = input.length → holds s.inp input → input.length + 2 ≤ (cap v).dataCodewords →
    ∃ t, exec .pack s = .next t ∧ t = { s with dcw := t.dcw, phase := .packed } ∧
      (∀ i, i < (cap v).dataCodewords → Memory.read t.dcw i = some (packedByte input i)) ∧
      (∀ i, (cap v).dataCodewords ≤ i → Memory.read t.dcw i = Memory.read s.dcw i)

/-! ### Interleaver -/

/-- R104, R103: with one block ILV completes; CW is the data codewords and then their EC bytes, every index beyond reads as
before, and nothing else but PHASE changes. -/
def Obligations.IlvOneBlock : Prop :=
  ∀ (s : State) (v : Version) (data : List Byte), s.phase = .packed → s.ver = some v → v ≠ .v6 →
    data.length = (cap v).dataCodewords → holds s.dcw data →
    ∃ t, exec .ilv s = .next t ∧ t = { s with cw := t.cw, phase := .coded } ∧
      (∀ i, i < (cap v).totalCodewords →
        Memory.read t.cw i = (data ++ rsEncode data (cap v).ecCodewordsPerBlock)[i]?) ∧
      (∀ i, (cap v).totalCodewords ≤ i → Memory.read t.cw i = Memory.read s.cw i)

/-- R105, R103: with two blocks (version 6) ILV completes; the two halves and their EC bytes are interleaved, every index
beyond reads as before, and nothing else but PHASE changes. -/
def Obligations.IlvTwoBlocks : Prop :=
  ∀ (s : State) (data : List Byte), s.phase = .packed → s.ver = some .v6 → data.length = 136 → holds s.dcw data →
    ∃ t, exec .ilv s = .next t ∧ t = { s with cw := t.cw, phase := .coded } ∧
      (∀ i, i < 68 → Memory.read t.cw (2 * i) = data[i]? ∧ Memory.read t.cw (2 * i + 1) = data[68 + i]?) ∧
      (∀ i, i < 18 → Memory.read t.cw (136 + 2 * i) = (rsEncode (data.take 68) 18)[i]? ∧
        Memory.read t.cw (137 + 2 * i) = (rsEncode (data.drop 68) 18)[i]?) ∧
      (∀ i, 172 ≤ i → Memory.read t.cw i = Memory.read s.cw i)

/-! ### Matrix -/

/-- R111 to R119: MFUNC completes; every cell of the new grid is the functional pattern at its position, cells outside the
grid do not exist, and nothing else but PHASE changes. -/
def Obligations.MfuncPlacesPatterns : Prop :=
  ∀ (s : State) (v : Version), s.phase = .coded → s.ver = some v →
    ∃ t, exec .mfunc s = .next t ∧ t = { s with grid := t.grid, phase := .func } ∧
      ∀ r c, Grid.get t.grid r c = if r < v.size ∧ c < v.size then some (functionalCell v r c) else none

/-- R120, R131, R82 (e): the numbers of U cells after MFUNC and after MFMT, and that every codeword bit has a cell. -/
def Obligations.UnassignedCellCounts : Prop :=
  Version.all.map (fun v => unassignedCount (funcGridOf v)) = [238, 389, 597, 837, 1109, 1413] ∧
  Version.all.map (fun v => unassignedCount (fmtGridOf v)) = [208, 359, 567, 807, 1079, 1383] ∧
  Version.all.map (fun v => unassignedCount (fmtGridOf v) - 8 * (cap v).totalCodewords) = [0, 7, 7, 7, 7, 7] ∧
  Version.all.all fun v => 8 * (cap v).totalCodewords ≤ unassignedCount (fmtGridOf v)

/-- R121: FORMAT is the level and mask bits `01000`, followed by the remainder of `01000·x^10` by 0x537, xor 0x5412. -/
def Obligations.FormatValueDerivation : Prop :=
  checkRemainder (0b01000 <<< 10) = 0b1111010110 ∧
  Config.default.format.toNat = (0b01000 <<< 10 ||| checkRemainder (0b01000 <<< 10)) ^^^ 0x5412 ∧
  Config.default.format.toNat = 0x77C4 ∧
  ∀ i, i < 15 → colour (Config.default.format.getLsbD i) = formatColours.getD i .unassigned

/-- R124, R110: the 30 format cells are distinct and all U before MFMT, for every version. -/
def Obligations.FormatCellsAreFree : Prop :=
  ∀ v : Version, (formatCopy1 ++ formatCopy2 v.size).Nodup ∧
    ∀ rc ∈ formatCopy1 ++ formatCopy2 v.size, Grid.get (funcGridOf v) rc.1 rc.2 = some .unassigned

/-- R122 to R124: MFMT completes; bit i of FORMAT stands in both copies, every other cell is unchanged, and nothing else
but PHASE changes. -/
def Obligations.MfmtWritesBothCopies : Prop :=
  ∀ (s : State) (v : Version), s.phase = .func → s.ver = some v → Grid.isSquare s.grid v.size = true →
    ∃ t, exec .mfmt s = .next t ∧ t = { s with grid := t.grid, phase := .fmt } ∧
      formatCopy1.map (fun rc => Grid.get t.grid rc.1 rc.2) = formatColours.map some ∧
      (formatCopy2 v.size).map (fun rc => Grid.get t.grid rc.1 rc.2) = formatColours.map some ∧
      ∀ r c, (r, c) ∉ formatCopy1 ++ formatCopy2 v.size → Grid.get t.grid r c = Grid.get s.grid r c

/-- R125, R131: the traversal lists every cell of the grid outside column 6 exactly once, in the zigzag order: `(size−1)/2`
strips of `2*size` cells, each cell at its place. -/
def Obligations.TraversalVisitsEachCellOnce : Prop :=
  ∀ v : Version, (traversal v.size).Nodup ∧
    (∀ r c, (r, c) ∈ traversal v.size ↔ r < v.size ∧ c < v.size ∧ c ≠ 6) ∧
    (traversal v.size).length = 2 * v.size * ((v.size - 1) / 2) ∧
    ∀ q t b, q < (v.size - 1) / 2 → t < v.size → b < 2 →
      (traversal v.size)[2 * v.size * q + 2 * t + b]? = some (zigzagCell v.size q t b)

/-- R126 to R130: MDATA completes; the k-th U cell of the traversal takes bit k of the codewords, most significant bit of
a byte first (0 beyond them), xor the mask; every other cell is unchanged, and nothing else but PHASE changes. -/
def Obligations.MdataPlacesMaskedBits : Prop :=
  ∀ (s : State) (v : Version) (codewords : List Byte), s.phase = .fmt → s.ver = some v →
    codewords.length = (cap v).totalCodewords → holds s.cw codewords → Grid.isSquare s.grid v.size = true →
    ∃ t, exec .mdata s = .next t ∧ t = { s with grid := t.grid, phase := .done } ∧
      (∀ k rc, (freeCells s.grid (traversal v.size))[k]? = some rc →
        Grid.get t.grid rc.1 rc.2 = some (dataCell codewords k rc)) ∧
      (∀ r c, (r, c) ∉ freeCells s.grid (traversal v.size) → Grid.get t.grid r c = Grid.get s.grid r c)

/-- R131, R19, R155: in DONE no cell of the grid is U, and every cell of it holds a colour. -/
def Obligations.FinishedGridIsAssigned : Prop :=
  ∀ (s : State) (v : Version) (r c : Nat), s.Inv → s.phase = .done → s.ver = some v → r < v.size → c < v.size →
    Grid.get s.grid r c = some .dark ∨ Grid.get s.grid r c = some .light

/-- R110, R119, R124: what functional placement assigned, and both format copies, stand unchanged in every finished grid,
whatever the input. -/
def Obligations.PatternsSurviveInFinishedGrid : Prop :=
  ∀ (s : State) (v : Version), s.Inv → s.phase = .done → s.ver = some v →
    (∀ r c, r < v.size → c < v.size → functionalCell v r c ≠ .unassigned →
      Grid.get s.grid r c = some (functionalCell v r c)) ∧
    formatCopy1.map (fun rc => Grid.get s.grid rc.1 rc.2) = formatColours.map some ∧
    (formatCopy2 v.size).map (fun rc => Grid.get s.grid rc.1 rc.2) = formatColours.map some

/-! ### Control, the composite and readout -/

/-- R140: NOP changes nothing, in every phase. -/
def Obligations.NopKeepsState : Prop :=
  ∀ s : State, exec .nop s = .next s

/-- R141, R25: CLEAR completes in every phase; it opens a fresh call and leaves RES, FLT and FINFO; with those at their
reset values the state is the reset state. (That `rsp` and `host`, the model's own fields, are left, and that the last
clause excepts them, is the model's: log entries 1, 3.) -/
def Obligations.ClearOpensFreshCall : Prop :=
  ∀ s : State, ∃ t, exec .clear s = .next t ∧ t.phase = .load ∧ t.len = 0 ∧ t.ovf = false ∧ t.ver = none ∧
    (∀ i, Memory.read t.inp i = none ∧ Memory.read t.dcw i = none ∧ Memory.read t.cw i = none) ∧
    (∀ r c, Grid.get t.grid r c = none) ∧ t.res = s.res ∧ t.flt = s.flt ∧ t.finfo = s.finfo ∧
    t.rsp = s.rsp ∧ t.host = s.host ∧
    (s.flt = .none → s.finfo = 0 → s.res = 0 → t = { State.reset with rsp := s.rsp, host := s.host })

/-- R142: PUSHB in LOAD appends the byte at index LEN and counts it; at LEN = 255 it drops the byte and sets OVF; every
other index of IN and everything else is unchanged. -/
def Obligations.PushbAppendsByte : Prop :=
  ∀ (a : Byte) (s : State), s.phase = .load →
    (s.len.toNat < 255 → ∃ t, exec (.pushb a) s = .next t ∧ t = { s with inp := t.inp, len := t.len } ∧
      t.len.toNat = s.len.toNat + 1 ∧ Memory.read t.inp s.len.toNat = some a ∧
      ∀ i, i ≠ s.len.toNat → Memory.read t.inp i = Memory.read s.inp i) ∧
    (s.len.toNat = 255 → exec (.pushb a) s = .next { s with ovf := true })

/-- R150: from any state in LOAD, GEN leaves exactly the state the six stage commands leave when issued one after another,
and VSEL's state alone if VSEL failed. -/
def Obligations.GenEqualsStageCommands : Prop :=
  ∀ s s1 : State, s.phase = .load → exec .vsel s = .next s1 →
    (s1.phase = .error → exec .gen s = .next s1) ∧
    (s1.phase ≠ .error → exec .gen s =
      andThen (andThen (andThen (andThen (exec .pack s1) (exec .ilv)) (exec .mfunc)) (exec .mfmt)) (exec .mdata))

/-- R150, R156, R86: GEN on an input that fits completes in DONE with the selected version and the finished symbol; RES,
the input and the fault record are unchanged. (The buffers' representation is the model's: log entry 5.) -/
def Obligations.GenFinishesSymbol : Prop :=
  ∀ (s : State) (input : List Byte), CallInv s input → s.phase = .load → s.ovf = false → s.len.toNat ≤ 134 →
    ∃ t v, exec .gen s = .next t ∧ selectVersion input.length = some v ∧
      t = { s with ver := some v, dcw := Memory.ofBytes (dataOf v input), cw := Memory.ofBytes (codewordsOf v input),
                   grid := symbolOf v input, phase := .done }

/-- R157: the outcome of GEN depends on the input alone: two states that agree on IN, LEN and OVF, whatever their RES, fault
record and history, end with the same per-call state. -/
def Obligations.GenDependsOnInputOnly : Prop :=
  ∀ s1 s2 t1 t2 : State, s1.Inv → s2.Inv → s1.phase = .load → s2.phase = .load → s1.inp = s2.inp → s1.len = s2.len →
    s1.ovf = s2.ovf → exec .gen s1 = .next t1 → exec .gen s2 = .next t2 →
    t1.phase = t2.phase ∧ t1.ver = t2.ver ∧ t1.dcw = t2.dcw ∧ t1.cw = t2.cw ∧ t1.grid = t2.grid

/-- R151, R13: RDSTAT completes in every phase; it leaves STATUS in RES, field by field, and touches nothing else. -/
def Obligations.RdstatReadsStatus : Prop :=
  ∀ s : State, ∃ w : Word, exec .rdstat s = .next { s with res := w } ∧
    w.toNat % 16 = (match s.phase with
      | .load => 0 | .selected => 1 | .packed => 2 | .coded => 3 | .func => 4 | .fmt => 5 | .done => 6 | .error => 7) ∧
    w.toNat / 2 ^ 4 % 8 = (match s.ver with
      | none => 0 | some v => v.number) ∧
    w.toNat / 2 ^ 7 % 2 = s.ovf.toNat ∧
    w.toNat / 2 ^ 8 % 256 = s.len.toNat ∧
    w.toNat / 2 ^ 16 % 4 = (match s.flt with
      | .none => 0 | .illegalCommand => 1 | .sequenceError => 2 | .indexRange => 3) ∧
    w.toNat / 2 ^ 18 = 0

/-- R152: RDFLT completes in every phase; it leaves FINFO in RES and touches nothing else. -/
def Obligations.RdfltReadsFaultInfo : Prop :=
  ∀ s : State, exec .rdflt s = .next { s with res := s.finfo }

/-- R153, R164: RDDCW in a legal phase reads the codeword at an index inside the data codewords, zero-extended, into RES and
touches nothing else; an index beyond raises IndexRange and does nothing else. -/
def Obligations.RddcwReadsDataCodeword : Prop :=
  ∀ (a : Byte) (s : State) (v : Version), s.phase ∈ [Phase.packed, .coded, .func, .fmt, .done] → s.ver = some v →
    (∀ b, a.toNat < (cap v).dataCodewords → Memory.read s.dcw a.toNat = some b →
      exec (.rddcw a) s = .next { s with res := BitVec.ofNat 32 b.toNat }) ∧
    ((cap v).dataCodewords ≤ a.toNat → exec (.rddcw a) s = .next (recorded s .indexRange (encode (.rddcw a))))

/-- R154, R164: RDCW in a legal phase reads the codeword at an index inside the final sequence, zero-extended, into RES and
touches nothing else; an index beyond raises IndexRange and does nothing else. -/
def Obligations.RdcwReadsCodeword : Prop :=
  ∀ (a : Byte) (s : State) (v : Version), s.phase ∈ [Phase.coded, .func, .fmt, .done] → s.ver = some v →
    (∀ b, a.toNat < (cap v).totalCodewords → Memory.read s.cw a.toNat = some b →
      exec (.rdcw a) s = .next { s with res := BitVec.ofNat 32 b.toNat }) ∧
    ((cap v).totalCodewords ≤ a.toNat → exec (.rdcw a) s = .next (recorded s .indexRange (encode (.rdcw a))))

/-- R155, R164: RDMOD in DONE reads a module of the grid into RES, 1 for dark and 0 for light, and touches nothing else; a row
or column beyond the side raises IndexRange and does nothing else. -/
def Obligations.RdmodReadsModule : Prop :=
  ∀ (a b : Byte) (s : State) (v : Version), s.phase = .done → s.ver = some v →
    (a.toNat < v.size → b.toNat < v.size → Grid.isSquare s.grid v.size = true →
      (Grid.get s.grid a.toNat b.toNat = some .dark → exec (.rdmod a b) s = .next { s with res := 1 }) ∧
      (Grid.get s.grid a.toNat b.toNat = some .light → exec (.rdmod a b) s = .next { s with res := 0 })) ∧
    (v.size ≤ a.toNat ∨ v.size ≤ b.toNat → exec (.rdmod a b) s = .next (recorded s .indexRange (encode (.rdmod a b))))
end

