-- ==== Sys2Proof/Laws/State.lean ====
section
/-! SUPPORT. One lemma per field per named update of State: what the update writes and what it leaves. -/

namespace Sys2Proof.Machine

/-! ### `State.writeRes` -/

@[simp] theorem State.writeRes_phase (s : State) (w : Word) : (s.writeRes w).phase = s.phase := rfl

@[simp] theorem State.writeRes_ver (s : State) (w : Word) : (s.writeRes w).ver = s.ver := rfl

@[simp] theorem State.writeRes_len (s : State) (w : Word) : (s.writeRes w).len = s.len := rfl

@[simp] theorem State.writeRes_ovf (s : State) (w : Word) : (s.writeRes w).ovf = s.ovf := rfl

@[simp] theorem State.writeRes_inp (s : State) (w : Word) : (s.writeRes w).inp = s.inp := rfl

@[simp] theorem State.writeRes_dcw (s : State) (w : Word) : (s.writeRes w).dcw = s.dcw := rfl

@[simp] theorem State.writeRes_cw (s : State) (w : Word) : (s.writeRes w).cw = s.cw := rfl

@[simp] theorem State.writeRes_grid (s : State) (w : Word) : (s.writeRes w).grid = s.grid := rfl

@[simp] theorem State.writeRes_flt (s : State) (w : Word) : (s.writeRes w).flt = s.flt := rfl

@[simp] theorem State.writeRes_finfo (s : State) (w : Word) : (s.writeRes w).finfo = s.finfo := rfl

@[simp] theorem State.writeRes_res (s : State) (w : Word) : (s.writeRes w).res = w := rfl

@[simp] theorem State.writeRes_rsp (s : State) (w : Word) : (s.writeRes w).rsp = s.rsp := rfl

@[simp] theorem State.writeRes_host (s : State) (w : Word) : (s.writeRes w).host = s.host := rfl

/-! ### `State.failCapacity` -/

@[simp] theorem State.failCapacity_phase (s : State) : (s.failCapacity).phase = .error := rfl

@[simp] theorem State.failCapacity_ver (s : State) : (s.failCapacity).ver = none := rfl

@[simp] theorem State.failCapacity_len (s : State) : (s.failCapacity).len = s.len := rfl

@[simp] theorem State.failCapacity_ovf (s : State) : (s.failCapacity).ovf = s.ovf := rfl

@[simp] theorem State.failCapacity_inp (s : State) : (s.failCapacity).inp = s.inp := rfl

@[simp] theorem State.failCapacity_dcw (s : State) : (s.failCapacity).dcw = s.dcw := rfl

@[simp] theorem State.failCapacity_cw (s : State) : (s.failCapacity).cw = s.cw := rfl

@[simp] theorem State.failCapacity_grid (s : State) : (s.failCapacity).grid = s.grid := rfl

@[simp] theorem State.failCapacity_flt (s : State) : (s.failCapacity).flt = s.flt := rfl

@[simp] theorem State.failCapacity_finfo (s : State) : (s.failCapacity).finfo = s.finfo := rfl

@[simp] theorem State.failCapacity_res (s : State) : (s.failCapacity).res = s.res := rfl

@[simp] theorem State.failCapacity_rsp (s : State) : (s.failCapacity).rsp = s.rsp := rfl

@[simp] theorem State.failCapacity_host (s : State) : (s.failCapacity).host = s.host := rfl

/-! ### `State.withHost` -/

@[simp] theorem State.withHost_phase (s : State) (rest : List HostAction) : (s.withHost rest).phase = s.phase := rfl

@[simp] theorem State.withHost_ver (s : State) (rest : List HostAction) : (s.withHost rest).ver = s.ver := rfl

@[simp] theorem State.withHost_len (s : State) (rest : List HostAction) : (s.withHost rest).len = s.len := rfl

@[simp] theorem State.withHost_ovf (s : State) (rest : List HostAction) : (s.withHost rest).ovf = s.ovf := rfl

@[simp] theorem State.withHost_inp (s : State) (rest : List HostAction) : (s.withHost rest).inp = s.inp := rfl

@[simp] theorem State.withHost_dcw (s : State) (rest : List HostAction) : (s.withHost rest).dcw = s.dcw := rfl

@[simp] theorem State.withHost_cw (s : State) (rest : List HostAction) : (s.withHost rest).cw = s.cw := rfl

@[simp] theorem State.withHost_grid (s : State) (rest : List HostAction) : (s.withHost rest).grid = s.grid := rfl

@[simp] theorem State.withHost_flt (s : State) (rest : List HostAction) : (s.withHost rest).flt = s.flt := rfl

@[simp] theorem State.withHost_finfo (s : State) (rest : List HostAction) : (s.withHost rest).finfo = s.finfo := rfl

@[simp] theorem State.withHost_res (s : State) (rest : List HostAction) : (s.withHost rest).res = s.res := rfl

@[simp] theorem State.withHost_rsp (s : State) (rest : List HostAction) : (s.withHost rest).rsp = s.rsp := rfl

@[simp] theorem State.withHost_host (s : State) (rest : List HostAction) : (s.withHost rest).host = rest := rfl

/-! ### `State.respond` -/

@[simp] theorem State.respond_phase (s : State) : (s.respond).phase = s.phase := rfl

@[simp] theorem State.respond_ver (s : State) : (s.respond).ver = s.ver := rfl

@[simp] theorem State.respond_len (s : State) : (s.respond).len = s.len := rfl

@[simp] theorem State.respond_ovf (s : State) : (s.respond).ovf = s.ovf := rfl

@[simp] theorem State.respond_inp (s : State) : (s.respond).inp = s.inp := rfl

@[simp] theorem State.respond_dcw (s : State) : (s.respond).dcw = s.dcw := rfl

@[simp] theorem State.respond_cw (s : State) : (s.respond).cw = s.cw := rfl

@[simp] theorem State.respond_grid (s : State) : (s.respond).grid = s.grid := rfl

@[simp] theorem State.respond_flt (s : State) : (s.respond).flt = s.flt := rfl

@[simp] theorem State.respond_finfo (s : State) : (s.respond).finfo = s.finfo := rfl

@[simp] theorem State.respond_res (s : State) : (s.respond).res = s.res := rfl

@[simp] theorem State.respond_rsp (s : State) : (s.respond).rsp = some s.res := rfl

@[simp] theorem State.respond_host (s : State) : (s.respond).host = s.host := rfl

/-! ### `State.clearCall` -/

@[simp] theorem State.clearCall_phase (s : State) : (s.clearCall).phase = .load := rfl

@[simp] theorem State.clearCall_ver (s : State) : (s.clearCall).ver = none := rfl

@[simp] theorem State.clearCall_len (s : State) : (s.clearCall).len = 0 := rfl

@[simp] theorem State.clearCall_ovf (s : State) : (s.clearCall).ovf = false := rfl

@[simp] theorem State.clearCall_inp (s : State) : (s.clearCall).inp = [] := rfl

@[simp] theorem State.clearCall_dcw (s : State) : (s.clearCall).dcw = [] := rfl

@[simp] theorem State.clearCall_cw (s : State) : (s.clearCall).cw = [] := rfl

@[simp] theorem State.clearCall_grid (s : State) : (s.clearCall).grid = [] := rfl

@[simp] theorem State.clearCall_flt (s : State) : (s.clearCall).flt = s.flt := rfl

@[simp] theorem State.clearCall_finfo (s : State) : (s.clearCall).finfo = s.finfo := rfl

@[simp] theorem State.clearCall_res (s : State) : (s.clearCall).res = s.res := rfl

@[simp] theorem State.clearCall_rsp (s : State) : (s.clearCall).rsp = s.rsp := rfl

@[simp] theorem State.clearCall_host (s : State) : (s.clearCall).host = s.host := rfl

/-! ### `State.raise` -/

@[simp] theorem State.raise_phase (s : State) (c : FaultCode) (w : Word) : (s.raise c w).phase = s.phase := by
  unfold State.raise; split <;> rfl

@[simp] theorem State.raise_ver (s : State) (c : FaultCode) (w : Word) : (s.raise c w).ver = s.ver := by
  unfold State.raise; split <;> rfl

@[simp] theorem State.raise_len (s : State) (c : FaultCode) (w : Word) : (s.raise c w).len = s.len := by
  unfold State.raise; split <;> rfl

@[simp] theorem State.raise_ovf (s : State) (c : FaultCode) (w : Word) : (s.raise c w).ovf = s.ovf := by
  unfold State.raise; split <;> rfl

@[simp] theorem State.raise_inp (s : State) (c : FaultCode) (w : Word) : (s.raise c w).inp = s.inp := by
  unfold State.raise; split <;> rfl

@[simp] theorem State.raise_dcw (s : State) (c : FaultCode) (w : Word) : (s.raise c w).dcw = s.dcw := by
  unfold State.raise; split <;> rfl

@[simp] theorem State.raise_cw (s : State) (c : FaultCode) (w : Word) : (s.raise c w).cw = s.cw := by
  unfold State.raise; split <;> rfl

@[simp] theorem State.raise_grid (s : State) (c : FaultCode) (w : Word) : (s.raise c w).grid = s.grid := by
  unfold State.raise; split <;> rfl

theorem State.raise_flt (s : State) (c : FaultCode) (w : Word) :
    (s.raise c w).flt = if s.flt = .none then c else s.flt := by
  unfold State.raise; split <;> rfl

theorem State.raise_finfo (s : State) (c : FaultCode) (w : Word) :
    (s.raise c w).finfo = if s.flt = .none then w else s.finfo := by
  unfold State.raise; split <;> rfl

@[simp] theorem State.raise_res (s : State) (c : FaultCode) (w : Word) : (s.raise c w).res = s.res := by
  unfold State.raise; split <;> rfl

@[simp] theorem State.raise_rsp (s : State) (c : FaultCode) (w : Word) : (s.raise c w).rsp = s.rsp := by
  unfold State.raise; split <;> rfl

@[simp] theorem State.raise_host (s : State) (c : FaultCode) (w : Word) : (s.raise c w).host = s.host := by
  unfold State.raise; split <;> rfl

/-- The first fault since reset is recorded, and nothing else changes. -/
theorem State.raise_first {s : State} (h : s.flt = .none) (c : FaultCode) (w : Word) :
    s.raise c w = { s with flt := c, finfo := w } := by
  simp [State.raise, h]

/-- A later fault changes nothing. -/
theorem State.raise_later {s : State} (h : s.flt ≠ .none) (c : FaultCode) (w : Word) : s.raise c w = s := by
  simp [State.raise, h]

end Sys2Proof.Machine
end

