-- ==== Sys2Proof/Laws/Ops.lean ====
section
/-! SUPPORT. One lemma per shared operation: everything it can do when it answers a next state. -/

namespace Sys2Proof.Machine

variable {s t : State}

/-- In a legal phase the command's rule runs; in any other the command records SequenceError and does nothing else. -/
theorem guarded_next {i : Instr} {body : State → Host.Outcome State Fault Refusal} (h : guarded i s body = .next t) :
    (legal i s.phase = true ∧ body s = .next t) ∨
      (legal i s.phase = false ∧ t = s.raise .sequenceError (encode i)) := by
  unfold guarded at h
  split at h
  · next hl => exact .inl ⟨hl, h⟩
  · next hl =>
    simp only [Host.Outcome.next.injEq] at h
    exact .inr ⟨by simpa using hl, h.symm⟩

theorem guarded_legal {i : Instr} {body : State → Host.Outcome State Fault Refusal} (h : legal i s.phase = true) :
    guarded i s body = body s := by
  simp [guarded, h]

theorem guarded_illegal {i : Instr} {body : State → Host.Outcome State Fault Refusal} (h : legal i s.phase = false) :
    guarded i s body = .next (s.raise .sequenceError (encode i)) := by
  simp [guarded, h]

theorem withVersion_next {k : Version → Host.Outcome State Fault Refusal} (h : withVersion s k = .next t) :
    ∃ v, s.ver = some v ∧ k v = .next t := by
  unfold withVersion at h
  split at h
  · next v hv => exact ⟨v, hv, h⟩
  · cases h

theorem withVersion_some {k : Version → Host.Outcome State Fault Refusal} {v : Version} (h : s.ver = some v) :
    withVersion s k = k v := by
  simp [withVersion, h]

theorem withBytes_next {sp : Space} {m : Memory} {n : Nat} {k : List Byte → Host.Outcome State Fault Refusal}
    (h : withBytes sp m n k = .next t) : ∃ bs, Memory.load m 0 n = some bs ∧ k bs = .next t := by
  unfold withBytes at h
  split at h
  · next bs hb => exact ⟨bs, hb, h⟩
  · cases h

theorem withBytes_some {sp : Space} {m : Memory} {n : Nat} {k : List Byte → Host.Outcome State Fault Refusal}
    {bs : List Byte} (h : Memory.load m 0 n = some bs) : withBytes sp m n k = k bs := by
  simp [withBytes, h]

theorem withGrid_next {size : Nat} {k : Grid → Host.Outcome State Fault Refusal} (h : withGrid s size k = .next t) :
    Grid.isSquare s.grid size = true ∧ k s.grid = .next t := by
  unfold withGrid at h
  split at h
  · next hg => exact ⟨hg, h⟩
  · cases h

theorem withGrid_square {size : Nat} {k : Grid → Host.Outcome State Fault Refusal}
    (h : Grid.isSquare s.grid size = true) : withGrid s size k = k s.grid := by
  simp [withGrid, h]

theorem checkIndex_next {i : Instr} {p : Prop} [Decidable p] {k : Host.Outcome State Fault Refusal}
    (h : checkIndex i s p k = .next t) : (p ∧ k = .next t) ∨ (¬p ∧ t = s.raise .indexRange (encode i)) := by
  unfold checkIndex at h
  split at h
  · next hp => exact .inl ⟨hp, h⟩
  · next hp =>
    simp only [Host.Outcome.next.injEq] at h
    exact .inr ⟨hp, h.symm⟩

theorem checkIndex_inside {i : Instr} {p : Prop} [Decidable p] {k : Host.Outcome State Fault Refusal} (h : p) :
    checkIndex i s p k = k :=
  if_pos h

theorem checkIndex_outside {i : Instr} {p : Prop} [Decidable p] {k : Host.Outcome State Fault Refusal} (h : ¬p) :
    checkIndex i s p k = .next (s.raise .indexRange (encode i)) :=
  if_neg h

theorem readByte_next {sp : Space} {m : Memory} {a : Byte} (h : readByte sp m a s = .next t) :
    ∃ v, Memory.read m a.toNat = some v ∧ t = s.writeRes (zext32 v) := by
  unfold readByte at h
  split at h
  · next v hv =>
    simp only [Host.Outcome.next.injEq] at h
    exact ⟨v, hv, h.symm⟩
  · cases h

@[simp] theorem andThen_of_next (s : State) (k : State → Host.Outcome State Fault Refusal) :
    andThen (.next s) k = k s := rfl

theorem andThen_next {o : Host.Outcome State Fault Refusal} {k : State → Host.Outcome State Fault Refusal}
    (h : andThen o k = .next t) : ∃ u, o = .next u ∧ k u = .next t := by
  cases o with
  | next u => exact ⟨u, rfl, h⟩
  | fault f => cases h
  | refused r => cases h

/-- One command word: an illegal one is recorded, a legal one is executed; both are answered with RES. -/
theorem runCommand_next {ex : Instr → State → Host.Outcome State Fault Refusal} {w : Word}
    (h : runCommand ex w s = .next t) :
    (∃ i u, decode w = .ok i ∧ ex i s = .next u ∧ t = u.respond) ∨
      (∃ e, decode w = .error e ∧ t = (s.raise .illegalCommand w).respond) := by
  unfold runCommand at h
  split at h
  · next i hi =>
    obtain ⟨u, hu, ht⟩ := andThen_next h
    simp only [Host.Outcome.next.injEq] at ht
    exact .inl ⟨i, u, hi, hu, ht.symm⟩
  · next e he =>
    simp only [Host.Outcome.next.injEq] at h
    exact .inr ⟨e, he, h.symm⟩

/-- One step: idle, a command, or reset. -/
theorem step_next (h : step s = .next t) :
    (s.host = [] ∧ t = s) ∨
      (∃ w rest, s.host = .command w :: rest ∧ runCommand exec w (s.withHost rest) = .next t) ∨
      (∃ rest, s.host = .reset :: rest ∧ t = applyReset rest) := by
  unfold step at h
  split at h
  · next hh =>
    simp only [Host.Outcome.next.injEq] at h
    exact .inl ⟨hh, h.symm⟩
  · next w rest hh => exact .inr (.inl ⟨w, rest, hh, h⟩)
  · next rest hh =>
    simp only [Host.Outcome.next.injEq] at h
    exact .inr (.inr ⟨rest, hh, h.symm⟩)

/-- The selector either chooses a version that fits or fails with CapacityExceeded. -/
theorem vselBody_cases (s : State) :
    (∃ v, s.ovf = false ∧ selectVersion s.len.toNat = some v ∧ vselBody s = { s with ver := some v, phase := .selected }) ∨
      ((s.ovf = true ∨ selectVersion s.len.toNat = none) ∧ vselBody s = s.failCapacity) := by
  unfold vselBody
  split
  · next h => exact .inr ⟨.inl h, rfl⟩
  · next h =>
    split
    · next v hv => exact .inl ⟨v, by simpa using h, hv, rfl⟩
    · next hv => exact .inr ⟨.inr hv, rfl⟩

/-- PUSHB appends the byte, or drops it and sets OVF. -/
theorem pushbBody_cases (a : Byte) (s : State) :
    (s.len = 255 ∧ pushbBody a s = { s with ovf := true }) ∨
      (s.len ≠ 255 ∧ pushbBody a s = { s with inp := Memory.write s.inp s.len.toNat a, len := s.len + 1 }) := by
  unfold pushbBody overflows
  by_cases h : s.len = 255
  · exact .inl ⟨h, if_pos (beq_iff_eq.mpr h)⟩
  · exact .inr ⟨h, if_neg fun hb => h (beq_iff_eq.mp hb)⟩

/-- The body of PACK, where what it reads is there. -/
theorem packBody_eq {v : Version} {input : List Byte} (hv : s.ver = some v)
    (hi : Memory.load s.inp 0 s.len.toNat = some input) :
    packBody s = .next { s with
      dcw := Memory.store s.dcw 0 (dataCodewords (cap v).dataCodewords s.len input), phase := .packed } := by
  rw [packBody, withVersion_some hv, withBytes_some hi]

/-- PACK writes DCW and PHASE. -/
theorem packBody_next (h : packBody s = .next t) :
    ∃ v input, s.ver = some v ∧ Memory.load s.inp 0 s.len.toNat = some input ∧
      t = { s with dcw := Memory.store s.dcw 0 (dataCodewords (cap v).dataCodewords s.len input), phase := .packed } := by
  obtain ⟨v, hv, h⟩ := withVersion_next h
  obtain ⟨input, hi, h⟩ := withBytes_next h
  simp only [Host.Outcome.next.injEq] at h
  exact ⟨v, input, hv, hi, h.symm⟩

/-- The body of ILV, where what it reads is there. -/
theorem ilvBody_eq {v : Version} {data : List Byte} (hv : s.ver = some v)
    (hd : Memory.load s.dcw 0 (cap v).dataCodewords = some data) :
    ilvBody s = .next { s with
      cw := Memory.store s.cw 0 ((finalCodewords (cap v) data).take (cap v).totalCodewords), phase := .coded } := by
  rw [ilvBody, withVersion_some hv, withBytes_some hd]

/-- ILV writes CW and PHASE. -/
theorem ilvBody_next (h : ilvBody s = .next t) :
    ∃ v data, s.ver = some v ∧ Memory.load s.dcw 0 (cap v).dataCodewords = some data ∧
      t = { s with
        cw := Memory.store s.cw 0 ((finalCodewords (cap v) data).take (cap v).totalCodewords), phase := .coded } := by
  obtain ⟨v, hv, h⟩ := withVersion_next h
  obtain ⟨data, hd, h⟩ := withBytes_next h
  simp only [Host.Outcome.next.injEq] at h
  exact ⟨v, data, hv, hd, h.symm⟩

/-- The body of MFUNC, where what it reads is there. -/
theorem mfuncBody_eq {v : Version} (hv : s.ver = some v) :
    mfuncBody s = .next { s with grid := functionalGrid v.size (cap v).alignmentCenters, phase := .func } := by
  rw [mfuncBody, withVersion_some hv]

/-- MFUNC writes GRID and PHASE. -/
theorem mfuncBody_next (h : mfuncBody s = .next t) :
    ∃ v, s.ver = some v ∧ t = { s with grid := functionalGrid v.size (cap v).alignmentCenters, phase := .func } := by
  obtain ⟨v, hv, h⟩ := withVersion_next h
  simp only [Host.Outcome.next.injEq] at h
  exact ⟨v, hv, h.symm⟩

/-- The body of MFMT, where what it reads is there. -/
theorem mfmtBody_eq {v : Version} (hv : s.ver = some v) (hg : Grid.isSquare s.grid v.size = true) :
    mfmtBody s = .next { s with grid := placeFormat Config.default.format v.size s.grid, phase := .fmt } := by
  rw [mfmtBody, withVersion_some hv, withGrid_square hg]

/-- MFMT writes GRID and PHASE. -/
theorem mfmtBody_next (h : mfmtBody s = .next t) :
    ∃ v, s.ver = some v ∧ Grid.isSquare s.grid v.size = true ∧
      t = { s with grid := placeFormat Config.default.format v.size s.grid, phase := .fmt } := by
  obtain ⟨v, hv, h⟩ := withVersion_next h
  obtain ⟨hg, h⟩ := withGrid_next h
  simp only [Host.Outcome.next.injEq] at h
  exact ⟨v, hv, hg, h.symm⟩

/-- The body of MDATA, where what it reads is there. -/
theorem mdataBody_eq {v : Version} {cws : List Byte} (hv : s.ver = some v)
    (hc : Memory.load s.cw 0 (cap v).totalCodewords = some cws) (hg : Grid.isSquare s.grid v.size = true) :
    mdataBody s = .next { s with grid := placeData v.size cws s.grid, phase := .done } := by
  rw [mdataBody, withVersion_some hv, withBytes_some hc, withGrid_square hg]

/-- MDATA writes GRID and PHASE. -/
theorem mdataBody_next (h : mdataBody s = .next t) :
    ∃ v cws, s.ver = some v ∧ Memory.load s.cw 0 (cap v).totalCodewords = some cws ∧
      Grid.isSquare s.grid v.size = true ∧ t = { s with grid := placeData v.size cws s.grid, phase := .done } := by
  obtain ⟨v, hv, h⟩ := withVersion_next h
  obtain ⟨cws, hc, h⟩ := withBytes_next h
  obtain ⟨hg, h⟩ := withGrid_next h
  simp only [Host.Outcome.next.injEq] at h
  exact ⟨v, cws, hv, hc, hg, h.symm⟩

/-- GEN is a failed selection, or the six stages one after another. -/
theorem genBody_next (h : genBody s = .next t) :
    ((vselBody s).phase = .error ∧ t = vselBody s) ∨
      ((vselBody s).phase ≠ .error ∧ ∃ s2 s3 s4 s5, packBody (vselBody s) = .next s2 ∧ ilvBody s2 = .next s3 ∧
        mfuncBody s3 = .next s4 ∧ mfmtBody s4 = .next s5 ∧ mdataBody s5 = .next t) := by
  unfold genBody at h
  split at h
  · next hp =>
    simp only [Host.Outcome.next.injEq] at h
    exact .inl ⟨hp, h.symm⟩
  · next hp =>
    obtain ⟨s5, h5, h6⟩ := andThen_next h
    obtain ⟨s4, h4, h5⟩ := andThen_next h5
    obtain ⟨s3, h3, h4⟩ := andThen_next h4
    obtain ⟨s2, h2, h3⟩ := andThen_next h3
    exact .inr ⟨hp, s2, s3, s4, s5, h2, h3, h4, h5, h6⟩

end Sys2Proof.Machine
end

