-- ==== Sys2Proof/Laws/Exec.lean ====
section
/-! SUPPORT. The meaning of each command as its rule under the phase check (R49 steps 3 and 4), one line a command. -/

namespace Sys2Proof.Machine

variable (s : State)

theorem exec_nop : exec .nop s = guarded .nop s (fun s => .next s) := rfl

theorem exec_clear : exec .clear s = guarded .clear s (fun s => .next s.clearCall) := rfl

theorem exec_pushb (a : Byte) : exec (.pushb a) s = guarded (.pushb a) s (fun s => .next (pushbBody a s)) := rfl

theorem exec_gfmul (a b : Byte) :
    exec (.gfmul a b) s = guarded (.gfmul a b) s (fun s => .next (s.writeRes (zext32 (gfmul a b)))) := rfl

theorem exec_vsel : exec .vsel s = guarded .vsel s (fun s => .next (vselBody s)) := rfl

theorem exec_pack : exec .pack s = guarded .pack s packBody := rfl

theorem exec_ilv : exec .ilv s = guarded .ilv s ilvBody := rfl

theorem exec_mfunc : exec .mfunc s = guarded .mfunc s mfuncBody := rfl

theorem exec_mfmt : exec .mfmt s = guarded .mfmt s mfmtBody := rfl

theorem exec_mdata : exec .mdata s = guarded .mdata s mdataBody := rfl

theorem exec_gen : exec .gen s = guarded .gen s genBody := rfl

theorem exec_rdstat : exec .rdstat s = guarded .rdstat s (fun s => .next (s.writeRes (statusWord s))) := rfl

theorem exec_rdflt : exec .rdflt s = guarded .rdflt s (fun s => .next (s.writeRes s.finfo)) := rfl

theorem exec_rddcw (a : Byte) :
    exec (.rddcw a) s = guarded (.rddcw a) s (fun s => withVersion s fun v =>
      checkIndex (.rddcw a) s (indexOf a < (cap v).dataCodewords) (readByte .dcw s.dcw a s)) := rfl

theorem exec_rdcw (a : Byte) :
    exec (.rdcw a) s = guarded (.rdcw a) s (fun s => withVersion s fun v =>
      checkIndex (.rdcw a) s (indexOf a < (cap v).totalCodewords) (readByte .cw s.cw a s)) := rfl

theorem exec_rdmod (a b : Byte) :
    exec (.rdmod a b) s = guarded (.rdmod a b) s (fun s => withVersion s fun v =>
      checkIndex (.rdmod a b) s (indexOf a < v.size ∧ indexOf b < v.size)
        (withGrid s v.size fun g => .next (s.writeRes (moduleValue (Grid.get g (indexOf a) (indexOf b)))))) := rfl

end Sys2Proof.Machine
end

