-- ==== Sys2Proof/Laws/Grid.lean ====
section
/-! SUPPORT. The laws of the grid: read after write, the square shape, and the writes of a placement. -/

namespace Sys2Proof.Machine

@[simp] theorem Grid.get_nil (r c : Nat) : Grid.get [] r c = none := rfl

@[simp] theorem Grid.get_zero (row : List Cell) (g : Grid) (c : Nat) : Grid.get (row :: g) 0 c = row[c]? := rfl

@[simp] theorem Grid.get_succ (row : List Cell) (g : Grid) (r c : Nat) :
    Grid.get (row :: g) (r + 1) c = Grid.get g r c := rfl

/-- A cell is found in its row. -/
theorem Grid.get_eq (g : Grid) (r c : Nat) : Grid.get g r c = (g[r]?).bind fun row => row[c]? := by
  induction g generalizing r with
  | nil => simp
  | cons row g ih =>
    cases r with
    | zero => simp
    | succ r => simpa using ih r

/-- A square grid has exactly the cells inside it. -/
theorem Grid.isSquare_iff {g : Grid} {n : Nat} :
    Grid.isSquare g n = true ↔ g.length = n ∧ ∀ row ∈ g, row.length = n := by
  simp [Grid.isSquare]

theorem Grid.get_isSome {g : Grid} {n : Nat} (h : Grid.isSquare g n = true) (r c : Nat) :
    (Grid.get g r c).isSome = true ↔ r < n ∧ c < n := by
  obtain ⟨hl, hrow⟩ := Grid.isSquare_iff.mp h
  rw [Grid.get_eq]
  by_cases hr : r < g.length
  · rw [List.getElem?_eq_getElem hr]
    have := hrow g[r] (List.getElem_mem hr)
    simp [this, ← hl, hr]
  · rw [List.getElem?_eq_none (by omega)]
    simp
    omega

/-- What a cell reads as after a write. -/
theorem Grid.get_set (g : Grid) (r c : Nat) (v : Cell) (r' c' : Nat) :
    Grid.get (Grid.set g r c v) r' c'
      = if r' = r ∧ c' = c ∧ (Grid.get g r c).isSome = true then some v else Grid.get g r' c' := by
  induction g generalizing r r' with
  | nil => simp [Grid.set]
  | cons row g ih =>
    cases r with
    | zero =>
      cases r' with
      | zero =>
        simp only [Grid.set, Grid.get_zero, List.getElem?_set]
        by_cases hc : c = c'
        · subst hc
          by_cases hlt : c < row.length <;> simp [hlt]
        · simp [hc, Ne.symm hc]
      | succ r' => simp [Grid.set]
    | succ r =>
      cases r' with
      | zero => simp [Grid.set]
      | succ r' =>
        simpa [Grid.set] using ih r r'

/-- A read after a write to the same cell of the grid gives the state written. -/
theorem Grid.get_set_same {g : Grid} {r c : Nat} (v : Cell) (h : (Grid.get g r c).isSome = true) :
    Grid.get (Grid.set g r c v) r c = some v := by
  simp [Grid.get_set, h]

/-- A write leaves every other cell as it was. -/
theorem Grid.get_set_other (g : Grid) {r c r' c' : Nat} (v : Cell) (h : (r', c') ≠ (r, c)) :
    Grid.get (Grid.set g r c v) r' c' = Grid.get g r' c' := by
  rw [Grid.get_set, if_neg]
  rintro ⟨rfl, rfl, -⟩
  exact h rfl

/-- A write keeps the shape of the grid. -/
@[simp] theorem Grid.isSquare_set (g : Grid) (r c : Nat) (v : Cell) (n : Nat) :
    Grid.isSquare (Grid.set g r c v) n = Grid.isSquare g n := by
  have hl : ∀ (g : Grid) (r : Nat), (Grid.set g r c v).map List.length = g.map List.length := by
    intro g
    induction g with
    | nil => intro r; rfl
    | cons row g ih =>
      intro r
      cases r with
      | zero => simp [Grid.set]
      | succ r => simp [Grid.set, ih r]
  have e : ∀ g : Grid, Grid.isSquare g n = ((g.map List.length).length == n && (g.map List.length).all (· == n)) := by
    intro g
    simp only [Grid.isSquare, List.length_map, List.all_map]
    rfl
  rw [e, e, hl]

@[simp] theorem Grid.isSquare_setAll (g : Grid) (ws : List (Nat × Nat × Cell)) (n : Nat) :
    Grid.isSquare (Grid.setAll g ws) n = Grid.isSquare g n := by
  induction ws generalizing g with
  | nil => rfl
  | cons w ws ih => obtain ⟨r, c, v⟩ := w; simp [Grid.setAll, ih]

@[simp] theorem Grid.isSquare_alloc (n : Nat) : Grid.isSquare (Grid.alloc n) n = true := by
  rw [Grid.isSquare_iff]
  simp only [Grid.alloc, List.length_replicate, true_and]
  intro row h
  rw [List.eq_of_mem_replicate h, List.length_replicate]

/-- Every cell of a fresh grid is U. -/
theorem Grid.get_alloc (n r c : Nat) :
    Grid.get (Grid.alloc n) r c = if r < n ∧ c < n then some .unassigned else none := by
  rw [Grid.get_eq, Grid.alloc]
  by_cases hr : r < n
  · by_cases hc : c < n <;> simp [hr, hc]
  · simp [hr]

/-- A cell that no write names keeps its state. -/
theorem Grid.get_setAll_other (g : Grid) (ws : List (Nat × Nat × Cell)) (r c : Nat)
    (h : ∀ w ∈ ws, (w.1, w.2.1) ≠ (r, c)) : Grid.get (Grid.setAll g ws) r c = Grid.get g r c := by
  induction ws generalizing g with
  | nil => rfl
  | cons w ws ih =>
    obtain ⟨r', c', v⟩ := w
    simp only [Grid.setAll]
    rw [ih _ fun w hw => h w (List.mem_cons_of_mem _ hw)]
    exact Grid.get_set_other g v (h (r', c', v) List.mem_cons_self).symm

theorem isSquare_placeAlignment (g : Grid) (rc : Nat × Nat) (n : Nat) :
    Grid.isSquare (placeAlignment g rc) n = Grid.isSquare g n := by
  unfold placeAlignment
  split
  · simp
  · rfl

/-- Functional placement gives a square grid. -/
theorem isSquare_functionalGrid (size : Nat) (ac : List Nat) :
    Grid.isSquare (functionalGrid size ac) size = true := by
  have fold1 : ∀ (l : List (Nat × Nat)) (g : Grid), Grid.isSquare (l.foldl (fun g rc =>
      Grid.setAll g (finderWrites size rc.1 rc.2)) g) size = Grid.isSquare g size := by
    intro l
    induction l with
    | nil => intro g; rfl
    | cons x l ih => intro g; simp [ih]
  have fold2 : ∀ (l : List (Nat × Nat)) (g : Grid), Grid.isSquare (l.foldl placeAlignment g) size
      = Grid.isSquare g size := by
    intro l
    induction l with
    | nil => intro g; rfl
    | cons x l ih => intro g; rw [List.foldl_cons, ih, isSquare_placeAlignment]
  simp [functionalGrid, alignedGrid, finderGrid, fold1, fold2]

/-- Format placement keeps the shape. -/
@[simp] theorem isSquare_placeFormat (f : BitVec 15) (size : Nat) (g : Grid) (n : Nat) :
    Grid.isSquare (placeFormat f size g) n = Grid.isSquare g n := by
  simp [placeFormat]

/-- Data placement keeps the shape. -/
theorem isSquare_placeBits (cells : List (Nat × Nat)) (bits : List Bool) (g : Grid) (n : Nat) :
    Grid.isSquare (placeBits cells bits g) n = Grid.isSquare g n := by
  induction cells generalizing bits g with
  | nil => rfl
  | cons rc cells ih =>
    obtain ⟨r, c⟩ := rc
    simp only [placeBits]
    split <;> simp [ih]

@[simp] theorem isSquare_placeData (size : Nat) (cw : List Byte) (g : Grid) (n : Nat) :
    Grid.isSquare (placeData size cw g) n = Grid.isSquare g n :=
  isSquare_placeBits _ _ _ _

/-- Data placement changes U cells only. -/
theorem get_placeBits_assigned (cells : List (Nat × Nat)) (bits : List Bool) (g : Grid) (r c : Nat)
    (h : Grid.get g r c ≠ some .unassigned) : Grid.get (placeBits cells bits g) r c = Grid.get g r c := by
  induction cells generalizing bits g with
  | nil => rfl
  | cons rc cells ih =>
    obtain ⟨r', c'⟩ := rc
    simp only [placeBits]
    split
    · next hU =>
      have hne : (r, c) ≠ (r', c') := by rintro ⟨⟩; exact h hU
      rw [ih, Grid.get_set_other _ _ hne]
      rwa [Grid.get_set_other _ _ hne]
    · exact ih _ _ h

end Sys2Proof.Machine
end

