-- ==== Sys2Proof/Laws/Memory.lean ====
section
/-! SUPPORT. The laws of the byte buffers: read after write, the canonical form, and consecutive bytes. -/

namespace Sys2Proof.Machine

@[simp] theorem Memory.read_nil (i : Nat) : Memory.read [] i = none := rfl

/-- A read after a write to the same index gives the byte written. -/
@[simp] theorem Memory.read_write_same (m : Memory) (i : Nat) (v : Byte) :
    Memory.read (Memory.write m i v) i = some v := by
  induction m with
  | nil => simp [Memory.write, Memory.read]
  | cons x m ih =>
    obtain ⟨k, u⟩ := x
    simp only [Memory.write]
    split
    · simp [Memory.read]
    · split
      · simp [Memory.read]
      · next h1 h2 =>
        have : k ≠ i := fun h => h2 h.symm
        simp [Memory.read, this, ih]

/-- A write leaves every other index as it was. -/
theorem Memory.read_write_other (m : Memory) {i j : Nat} (v : Byte) (h : j ≠ i) :
    Memory.read (Memory.write m i v) j = Memory.read m j := by
  induction m with
  | nil => simp [Memory.write, Memory.read, h.symm]
  | cons x m ih =>
    obtain ⟨k, u⟩ := x
    simp only [Memory.write]
    split
    · simp [Memory.read, h.symm]
    · split
      · next h1 h2 =>
        have : k ≠ j := fun hk => h (hk.symm.trans h2.symm)
        simp [Memory.read, h.symm, this]
      · simp [Memory.read, ih]

/-- What a listed index of a written buffer can be. -/
theorem Memory.mem_write {m : Memory} {i : Nat} {v : Byte} {x : Host.Cell} (h : x ∈ Memory.write m i v) :
    x = (i, v) ∨ x ∈ m := by
  induction m with
  | nil => simpa [Memory.write] using h
  | cons y m ih =>
    obtain ⟨k, u⟩ := y
    simp only [Memory.write] at h
    split at h
    · simpa using h
    · split at h
      · simp only [List.mem_cons] at h ⊢
        exact h.imp id Or.inr
      · simp only [List.mem_cons] at h ⊢
        obtain h | h := h
        · exact .inr (.inl h)
        · exact (ih h).imp id Or.inr

/-- A write keeps the canonical form. -/
theorem Memory.write_wf {m : Memory} (hm : Memory.wf m) (i : Nat) (v : Byte) : Memory.wf (Memory.write m i v) := by
  induction m with
  | nil => simp [Memory.write, Memory.wf]
  | cons x m ih =>
    obtain ⟨k, u⟩ := x
    simp only [Memory.wf, List.pairwise_cons] at hm
    simp only [Memory.write]
    split
    · next hi =>
      simp only [Memory.wf, List.pairwise_cons, List.mem_cons]
      refine ⟨?_, hm⟩
      rintro y (rfl | hy)
      · exact hi
      · exact Nat.lt_trans hi (hm.1 y hy)
    · split
      · next hi => subst hi; simpa [Memory.wf, List.pairwise_cons] using hm
      · simp only [Memory.wf, List.pairwise_cons]
        refine ⟨fun y hy => ?_, ih hm.2⟩
        obtain rfl | hy := Memory.mem_write hy
        · exact Nat.lt_of_le_of_ne (by omega) (by omega)
        · exact hm.1 y hy

/-- Storing consecutive bytes keeps the canonical form. -/
theorem Memory.store_wf {m : Memory} (hm : Memory.wf m) (i : Nat) (bs : List Byte) :
    Memory.wf (Memory.store m i bs) := by
  induction bs generalizing m i with
  | nil => exact hm
  | cons b bs ih => exact ih (Memory.write_wf hm i b) (i + 1)

/-- What every index reads as after consecutive bytes were stored. -/
theorem Memory.read_store (m : Memory) (i : Nat) (bs : List Byte) (j : Nat) :
    Memory.read (Memory.store m i bs) j
      = if i ≤ j ∧ j < i + bs.length then bs[j - i]? else Memory.read m j := by
  induction bs generalizing m i with
  | nil =>
    have h0 : ¬(i ≤ j ∧ j < i + ([] : List Byte).length) := by simp only [List.length_nil]; omega
    rw [if_neg h0]; rfl
  | cons b bs ih =>
    simp only [Memory.store, ih, List.length_cons]
    by_cases hj : j = i
    · subst hj
      rw [if_neg (by omega), if_pos (by omega), Memory.read_write_same, Nat.sub_self]; rfl
    · rw [Memory.read_write_other m b hj]
      by_cases h : i + 1 ≤ j ∧ j < i + 1 + bs.length
      · have h' : i ≤ j ∧ j < i + (bs.length + 1) := by omega
        have e : j - i = (j - (i + 1)) + 1 := by omega
        rw [if_pos h, if_pos h', e, List.getElem?_cons_succ]
      · have h' : ¬(i ≤ j ∧ j < i + (bs.length + 1)) := by omega
        rw [if_neg h, if_neg h']

/-- Loading gives exactly the bytes that are there: the length asked for, and each byte as it reads. -/
theorem Memory.load_eq_some {m : Memory} {i n : Nat} {bs : List Byte} :
    Memory.load m i n = some bs ↔ bs.length = n ∧ ∀ j, j < n → Memory.read m (i + j) = bs[j]? := by
  induction n generalizing i bs with
  | zero =>
    simp only [Memory.load, Option.some.injEq]
    constructor
    · rintro rfl; simp
    · rintro ⟨h, -⟩; exact (List.length_eq_zero_iff.mp h).symm
  | succ n ih =>
    constructor
    · intro h
      simp only [Memory.load] at h
      split at h
      · next v vs hv hvs =>
        simp only [Option.some.injEq] at h
        subst h
        obtain ⟨hl, hr⟩ := ih.mp hvs
        refine ⟨by simp [hl], fun j hj => ?_⟩
        cases j with
        | zero => simpa using hv
        | succ j =>
          have := hr j (by omega)
          simpa [Nat.add_assoc, Nat.add_comm 1 j] using this
      · cases h
    · rintro ⟨hl, hr⟩
      cases bs with
      | nil => simp at hl
      | cons b bs =>
        have h0 := hr 0 (by omega)
        have hrest : Memory.load m (i + 1) n = some bs := by
          refine ih.mpr ⟨by simpa using hl, fun j hj => ?_⟩
          have := hr (j + 1) (by omega)
          simpa [Nat.add_assoc, Nat.add_comm 1 j] using this
        simp only [Nat.add_zero, List.getElem?_cons_zero] at h0
        simp [Memory.load, h0, hrest]

/-- A buffer of given bytes reads as those bytes and holds no value beyond them. -/
@[simp] theorem Memory.read_ofBytes (bs : List Byte) (i : Nat) : Memory.read (Memory.ofBytes bs) i = bs[i]? := by
  unfold Memory.ofBytes
  rw [Memory.read_store]
  by_cases h : i < bs.length
  · simp [h]
  · simp [h]

/-- All of them can be loaded at once. -/
@[simp] theorem Memory.load_ofBytes (bs : List Byte) : Memory.load (Memory.ofBytes bs) 0 bs.length = some bs :=
  Memory.load_eq_some.mpr ⟨rfl, fun j _ => by simp⟩

theorem Memory.ofBytes_wf (bs : List Byte) : Memory.wf (Memory.ofBytes bs) :=
  Memory.store_wf List.Pairwise.nil 0 bs

/-- Writing at the first free index appends the byte. -/
theorem Memory.write_store (m : Memory) (i : Nat) (bs : List Byte) (v : Byte) :
    Memory.write (Memory.store m i bs) (i + bs.length) v = Memory.store m i (bs ++ [v]) := by
  induction bs generalizing m i with
  | nil => rfl
  | cons b bs ih =>
    have := ih (Memory.write m i b) (i + 1)
    simp only [List.length_cons, List.cons_append, Memory.store]
    rw [← this]
    congr 1
    omega

theorem Memory.write_ofBytes (bs : List Byte) (v : Byte) :
    Memory.write (Memory.ofBytes bs) bs.length v = Memory.ofBytes (bs ++ [v]) := by
  simpa [Memory.ofBytes] using Memory.write_store [] 0 bs v

/-- The buffers of the reset state are in canonical form. -/
theorem reset_buffers_wf :
    Memory.wf State.reset.inp ∧ Memory.wf State.reset.dcw ∧ Memory.wf State.reset.cw := by
  simp [State.reset, Memory.wf]

end Sys2Proof.Machine
end

