-- ==== Sys2Proof/Laws/PerInstr.lean ====
section
/-! SUPPORT. A statement made per instruction: the fields of every command's word are well-formed (R46, R51, R52). -/

namespace Sys2Proof.Laws

/-- The word a command is encoded as has an assigned opcode and zero in every field its format does not use. -/
def CommandFields.Statement (i : Instr) : Prop :=
  i.fields.wellFormed = true

theorem CommandFields.nop : CommandFields.Statement .nop := rfl

theorem CommandFields.clear : CommandFields.Statement .clear := rfl

theorem CommandFields.pushb (a : Byte) : CommandFields.Statement (.pushb a) := rfl

theorem CommandFields.gfmul (a b : Byte) : CommandFields.Statement (.gfmul a b) := rfl

theorem CommandFields.vsel : CommandFields.Statement .vsel := rfl

theorem CommandFields.pack : CommandFields.Statement .pack := rfl

theorem CommandFields.ilv : CommandFields.Statement .ilv := rfl

theorem CommandFields.mfunc : CommandFields.Statement .mfunc := rfl

theorem CommandFields.mfmt : CommandFields.Statement .mfmt := rfl

theorem CommandFields.mdata : CommandFields.Statement .mdata := rfl

theorem CommandFields.gen : CommandFields.Statement .gen := rfl

theorem CommandFields.rdstat : CommandFields.Statement .rdstat := rfl

theorem CommandFields.rdflt : CommandFields.Statement .rdflt := rfl

theorem CommandFields.rddcw (a : Byte) : CommandFields.Statement (.rddcw a) := rfl

theorem CommandFields.rdcw (a : Byte) : CommandFields.Statement (.rdcw a) := rfl

theorem CommandFields.rdmod (a b : Byte) : CommandFields.Statement (.rdmod a b) := rfl

end Sys2Proof.Laws
end

