-- ==== Sys2Proof/Machine/Assembler.lean ====
section
/-! DEFINITION. The assembler's lines (R54) and its pseudo-instructions (R55): one line of text to the commands it
stands for. It is notation of the host; no step uses it. -/

namespace Sys2Proof.Machine

/-- The single quote around a character operand. -/
def quoteChar : Char :=
  Char.ofNat 39

/-- The double quote around a text operand. -/
def textChar : Char :=
  Char.ofNat 34

/-- Space between the parts of a line. -/
def isBlank (c : Char) : Bool :=
  c == ' ' || c == Char.ofNat 9

/-- A printable ASCII character (R54). -/
def isPrintable (c : Char) : Bool :=
  32 ≤ c.toNat && c.toNat ≤ 126

/-- Drop space at the left. -/
def skipBlanks (cs : List Char) : List Char :=
  cs.dropWhile isBlank

/-- Only space and a comment are left: text from `;` to the end of the line (R54). -/
def atLineEnd (cs : List Char) : Bool :=
  match skipBlanks cs with
  | [] => true
  | c :: _ => c == ';'

/-- The value of a hexadecimal digit. -/
def digitValue (c : Char) : Option Nat :=
  let n := c.toNat
  if 48 ≤ n ∧ n ≤ 57 then some (n - 48)
  else if 65 ≤ n ∧ n ≤ 70 then some (n - 55)
  else if 97 ≤ n ∧ n ≤ 102 then some (n - 87)
  else none

/-- A number in a base, with at least one digit, read from the left; `acc` is the value so far, `seen` whether a digit
has been read. It gives the value and what follows it. -/
def readDigits (base acc : Nat) (seen : Bool) : List Char → Option (Nat × List Char)
  | [] => if seen then some (acc, []) else none
  | c :: cs =>
    match digitValue c with
    | some d => if d < base then readDigits base (acc * base + d) true cs else none
    | none => if seen then some (acc, c :: cs) else none

/-- A decimal or `0x` hexadecimal number 0 to 255 (R54). -/
def readNumber (cs : List Char) : Option (Byte × List Char) :=
  let r := match cs with
    | '0' :: 'x' :: hex => readDigits 16 0 false hex
    | _ => readDigits 10 0 false cs
  match r with
  | some (n, rest) => if n ≤ 255 then some (BitVec.ofNat 8 n, rest) else none
  | none => none

/-- A printable ASCII character in single quotes, standing for its code (R54, PUSHB only). -/
def readQuoted : List Char → Option (Byte × List Char)
  | q :: c :: q' :: rest =>
    if q = quoteChar ∧ q' = quoteChar ∧ isPrintable c then some (BitVec.ofNat 8 c.toNat, rest) else none
  | _ => none

/-- The characters up to the closing double quote, as their codes (R55). -/
def readTextBody : List Char → Option (List Byte × List Char)
  | [] => none
  | c :: cs =>
    if c = textChar then some ([], cs)
    else if isPrintable c then
      match readTextBody cs with
      | some (bs, rest) => some (BitVec.ofNat 8 c.toNat :: bs, rest)
      | none => none
    else none

/-- A text in double quotes (R55). -/
def readText : List Char → Option (List Byte × List Char)
  | c :: cs => if c = textChar then readTextBody cs else none
  | [] => none

/-- A line with no operand. -/
def lineN (i : Instr) (cs : List Char) : Option (List Instr) :=
  if atLineEnd cs then some [i] else none

/-- A line with one operand, read by `operand`. -/
def lineA (operand : List Char → Option (Byte × List Char)) (i : Byte → Instr) (cs : List Char) :
    Option (List Instr) :=
  match operand (skipBlanks cs) with
  | some (a, rest) => if atLineEnd rest then some [i a] else none
  | none => none

/-- The comma between two operands. -/
def readComma (cs : List Char) : Option (List Char) :=
  match skipBlanks cs with
  | ',' :: rest => some (skipBlanks rest)
  | _ => none

/-- A line with two numbers separated by a comma. -/
def lineAB (i : Byte → Byte → Instr) (cs : List Char) : Option (List Instr) :=
  match readNumber (skipBlanks cs) with
  | none => none
  | some (a, rest) =>
    match readComma rest with
    | none => none
    | some rest =>
      match readNumber rest with
      | some (b, rest) => if atLineEnd rest then some [i a b] else none
      | none => none

/-- A line with a text. -/
def lineText (f : List Byte → List Instr) (cs : List Char) : Option (List Instr) :=
  match readText (skipBlanks cs) with
  | some (text, rest) => if atLineEnd rest then some (f text) else none
  | none => none

/-- PUSHB takes a number or a quoted character (R54). -/
def pushbOperand (cs : List Char) : Option (Byte × List Char) :=
  match readQuoted cs with
  | some r => some r
  | none => readNumber cs

/-- A character a mnemonic is made of (R54: the mnemonics are capitals). -/
def isCapital (c : Char) : Bool :=
  65 ≤ c.toNat && c.toNat ≤ 90

/-- The mnemonics of R52 and the two pseudo-instructions of R55, each with the form of its operands. -/
def assembleAs (mnemonic : List Char) (cs : List Char) : Option (List Instr) :=
  match mnemonic with
  | ['N', 'O', 'P'] => lineN .nop cs
  | ['C', 'L', 'E', 'A', 'R'] => lineN .clear cs
  | ['P', 'U', 'S', 'H', 'B'] => lineA pushbOperand .pushb cs
  | ['G', 'F', 'M', 'U', 'L'] => lineAB .gfmul cs
  | ['V', 'S', 'E', 'L'] => lineN .vsel cs
  | ['P', 'A', 'C', 'K'] => lineN .pack cs
  | ['I', 'L', 'V'] => lineN .ilv cs
  | ['M', 'F', 'U', 'N', 'C'] => lineN .mfunc cs
  | ['M', 'F', 'M', 'T'] => lineN .mfmt cs
  | ['M', 'D', 'A', 'T', 'A'] => lineN .mdata cs
  | ['G', 'E', 'N'] => lineN .gen cs
  | ['R', 'D', 'S', 'T', 'A', 'T'] => lineN .rdstat cs
  | ['R', 'D', 'F', 'L', 'T'] => lineN .rdflt cs
  | ['R', 'D', 'D', 'C', 'W'] => lineA readNumber .rddcw cs
  | ['R', 'D', 'C', 'W'] => lineA readNumber .rdcw cs
  | ['R', 'D', 'M', 'O', 'D'] => lineAB .rdmod cs
  | ['P', 'U', 'S', 'H', 'S'] => lineText pushs cs
  | ['E', 'N', 'C', 'O', 'D', 'E'] => lineText encodeText cs
  | _ => none

/-- One line of assembler text (R54): no command on a line that is empty or only a comment; `none` where the line is not
assembler. DESIGN CHOICE (log entry 9): space may stand before the mnemonic and around operands. -/
def assembleLine (line : List Char) : Option (List Instr) :=
  let cs := skipBlanks line
  if atLineEnd cs then some []
  else
    let rest := cs.dropWhile isCapital
    if atLineEnd rest || rest != skipBlanks rest then assembleAs (cs.takeWhile isCapital) rest
    else none

end Sys2Proof.Machine
end

