-- ==== Sys2Proof/Tests/Slice0.lean ====
section
/-! SUPPORT. The model's own tests: the WellFormed checks, command words written out from the spec's encoding, one step of
each command with results from the spec's test vectors (95_test_vectors.md; the vector is named at each test), and a
witness for the hypotheses of each statement. -/

namespace Sys2Proof.Tests

open Sys2Proof.Machine Sys2Proof.Claims

/-! ### WellFormed: one ill-formed term for each check -/

theorem test_wellFormed_refuses_reserved_opcode : (Fields.mk 0x0B 0 0 0).wellFormed = false := by decide

theorem test_wellFormed_refuses_high_reserved_opcode : (Fields.mk 0x15 0 0 0).wellFormed = false := by decide

theorem test_wellFormed_refuses_operand_A_in_format_N : (Fields.mk 0x04 1 0 0).wellFormed = false := by decide

theorem test_wellFormed_refuses_operand_B_in_format_N : (Fields.mk 0x04 0 1 0).wellFormed = false := by decide

theorem test_wellFormed_refuses_Z_in_format_N : (Fields.mk 0x00 0 0 1).wellFormed = false := by decide

theorem test_wellFormed_refuses_operand_B_in_format_A : (Fields.mk 0x02 0x41 0x42 0).wellFormed = false := by decide

theorem test_wellFormed_refuses_Z_in_format_A : (Fields.mk 0x02 0x41 0 1).wellFormed = false := by decide

theorem test_wellFormed_refuses_Z_in_format_AB : (Fields.mk 0x14 1 1 1).wellFormed = false := by decide

theorem test_wellFormed_accepts_every_format :
    (Fields.mk 0x0A 0 0 0).wellFormed = true ∧ (Fields.mk 0x13 0xFF 0 0).wellFormed = true ∧
      (Fields.mk 0x14 0xFF 0xFF 0).wellFormed = true := by decide

/-! ### Decoding: words written out bit by bit from R45 and R52 -/

theorem test_decode_control_words :
    decode 0b00000000_00000000_00000000_00000000 = .ok .nop ∧ decode 0b00000001_00000000_00000000_00000000 = .ok .clear ∧
      decode 0b00000010_01000001_00000000_00000000 = .ok (.pushb 0x41) ∧
      decode 0b00001010_00000000_00000000_00000000 = .ok .gen := ⟨rfl, rfl, rfl, rfl⟩

theorem test_decode_gfmul_word : decode 0b00000011_01010011_11001010_00000000 = .ok (.gfmul 0x53 0xCA) := rfl

theorem test_decode_stage_words :
    decode 0b00000100_00000000_00000000_00000000 = .ok .vsel ∧ decode 0b00000101_00000000_00000000_00000000 = .ok .pack ∧
      decode 0b00000110_00000000_00000000_00000000 = .ok .ilv ∧ decode 0b00000111_00000000_00000000_00000000 = .ok .mfunc ∧
      decode 0b00001000_00000000_00000000_00000000 = .ok .mfmt ∧
      decode 0b00001001_00000000_00000000_00000000 = .ok .mdata :=
  ⟨rfl, rfl, rfl, rfl, rfl, rfl⟩

theorem test_decode_readout_words :
    decode 0b00010000_00000000_00000000_00000000 = .ok .rdstat ∧ decode 0b00010001_00000000_00000000_00000000 = .ok .rdflt ∧
      decode 0b00010010_00010010_00000000_00000000 = .ok (.rddcw 18) ∧
      decode 0b00010011_00011001_00000000_00000000 = .ok (.rdcw 25) ∧
      decode 0b00010100_00001101_00001000_00000000 = .ok (.rdmod 13 8) :=
  ⟨rfl, rfl, rfl, rfl, rfl⟩

/-- V79 to V83. -/
theorem test_decode_rejects_by_name :
    decode 0x0B000000 = .error .reservedOpcode ∧ decode 0xFF000000 = .error .reservedOpcode ∧
      decode 0x02410001 = .error .reservedField ∧ decode 0x02414200 = .error .reservedField ∧
      decode 0x04000100 = .error .reservedField :=
  ⟨rfl, rfl, rfl, rfl, rfl⟩

theorem test_encode_words :
    encode (.gfmul 0x53 0xCA) = 0x0353CA00 ∧ encode (.pushb 0x41) = 0x02410000 ∧ encode (.rdmod 8 0) = 0x14080000 ∧
      encode .gen = 0x0A000000 := by decide

/-! ### Assembler (the examples of R54, the expansion of R55) -/

theorem test_assemble_numbers :
    assembleLine ['G', 'F', 'M', 'U', 'L', ' ', '0', 'x', '5', '3', ',', ' ', '2', '0', '2'] = some [.gfmul 0x53 0xCA] := by
  decide

theorem test_assemble_quoted_and_comment :
    assembleLine (['P', 'U', 'S', 'H', 'B', ' ', quoteChar, 'A', quoteChar, ' ', ';', 'x']) = some [.pushb 0x41] := by
  decide

theorem test_assemble_encode :
    assembleLine (['E', 'N', 'C', 'O', 'D', 'E', ' ', textChar, 'A', textChar]) = some [.clear, .pushb 0x41, .gen] := by
  decide

theorem test_assemble_refuses_out_of_range :
    assembleLine ['R', 'D', 'C', 'W', ' ', '2', '5', '6'] = none := by decide

/-! ### One step of each command -/

/-- The state `s` whose host presents `w`. -/
def presenting (s : State) (w : Word) : State :=
  { s with host := [.command w] }

/-- A question about the next state, false where there is none. -/
def after (o : Host.Outcome State Fault Refusal) (p : State → Bool) : Bool :=
  match o with
  | .next t => p t
  | .fault _ => false
  | .refused _ => false

/-- A call of the given input in a phase after VSEL, as the stages leave it. -/
def callState (p : Phase) (v : Version) (input : List Byte) : State :=
  { State.reset with
    phase := p
    ver := some v
    len := BitVec.ofNat 8 input.length
    inp := Memory.ofBytes input
    dcw := if p.hasData then Memory.ofBytes (dataOf v input) else []
    cw := if p.hasCodewords then Memory.ofBytes (codewordsOf v input) else []
    grid := gridIn p v input }

/-- A fresh call with `n` bytes of input 0x55. -/
def loaded (n : Nat) : State :=
  { State.reset with len := BitVec.ofNat 8 n, inp := Memory.ofBytes (List.replicate n 0x55) }

/-- R140: the response repeats the previous result. -/
theorem test_nop_responds_previous_result :
    after (step (presenting { State.reset with res := 4 } 0x00000000)) (fun t => t.rsp == some 4 && t.phase == .load) := by
  decide

/-- V95: CLEAR does not clear FLT. -/
theorem test_clear_keeps_fault_record :
    after (step (presenting { loaded 3 with flt := .sequenceError, finfo := 0x05000000 } 0x01000000))
      (fun t => statusWord t == 0x00020000 && t.finfo == 0x05000000 && t.inp == []) := by decide

/-- V78: CLEAR recovers from ERROR. -/
theorem test_clear_recovers_from_error :
    after (step (presenting { loaded 2 with phase := .error } 0x01000000)) (fun t => statusWord t == 0) := by decide

/-- V72. -/
theorem test_pushb_appends :
    after (step (presenting State.reset 0x02410000)) (fun t => t.inp == [(0, 0x41)] && statusWord t == 0x00000100) := by
  decide

/-- V74: the 256th byte is dropped and OVF set. -/
theorem test_pushb_at_255_sets_overflow :
    after (step (presenting { State.reset with len := 255 } 0x02BB0000))
      (fun t => statusWord t == 0x0000FF80 && t.inp == []) := by decide

/-- V6. -/
theorem test_gfmul_reduces :
    after (step (presenting State.reset 0x03028000)) (fun t => t.rsp == some 0x1D) := by decide +kernel

/-- V15: the largest table index, 508. -/
theorem test_gfmul_largest_index :
    after (step (presenting State.reset 0x038E8E00)) (fun t => t.rsp == some 0x47) := by decide +kernel

/-- V30: 17 bytes select version 1, 18 bytes version 2. -/
theorem test_vsel_boundary :
    after (exec .vsel { State.reset with len := 17 }) (fun t => statusWord t == 0x00001111) ∧
      after (exec .vsel { State.reset with len := 18 }) (fun t => statusWord t == 0x00001221) := by decide

/-- V75: OVF fails the selection. -/
theorem test_vsel_fails_on_overflow :
    after (exec .vsel { State.reset with len := 255, ovf := true }) (fun t => statusWord t == 0x0000FF87) := by decide

/-- V32: the data codewords of the one byte 0x41. -/
theorem test_pack_one_byte :
    after (exec .pack (callState .selected .v1 [0x41]))
      (fun t => t.phase == .packed && t.dcw.map (·.2) == [0x40, 0x14, 0x10, 0xEC, 0x11, 0xEC, 0x11, 0xEC, 0x11, 0xEC, 0x11,
        0xEC, 0x11, 0xEC, 0x11, 0xEC, 0x11, 0xEC, 0x11]) := by decide +kernel

/-- V84: PACK in LOAD. -/
theorem test_pack_out_of_phase :
    after (step (presenting State.reset 0x05000000)) (fun t => statusWord t == 0x00020000 && t.finfo == 0x05000000) := by
  decide

/-- V23. -/
theorem test_rsEncode_worked_example : rsEncode [0x12, 0x34, 0x56] 2 = [0x98, 0xE8] := by decide +kernel

/-- R102: round-robin over two blocks. -/
theorem test_roundRobin_two_blocks : roundRobin 3 [[1, 2, 3], [4, 5, 6]] = [1, 4, 2, 5, 3, 6] := by decide

/-- V40: the first and last EC bytes of the empty input. -/
theorem test_ilv_appends_ec_bytes :
    after (exec .ilv (callState .packed .v1 []))
      (fun t => t.phase == .coded && Memory.read t.cw 0 == some 0x40 && Memory.read t.cw 19 == some 0xF9 &&
        Memory.read t.cw 25 == some 0xD2 && Memory.read t.cw 26 == none) := by decide +kernel

/-- V50: the dark module, a separator cell, a timing cell, a format cell still U, and no cell beyond the side. -/
theorem test_mfunc_version_1 :
    after (exec .mfunc { State.reset with phase := .coded, ver := some .v1 })
      (fun t => t.phase == .func && Grid.get t.grid 13 8 == some .dark && Grid.get t.grid 7 7 == some .light &&
        Grid.get t.grid 6 9 == some .light && Grid.get t.grid 8 0 == some .unassigned && Grid.get t.grid 21 0 == none) := by
  decide +kernel

/-- V52: the one alignment marker of version 2 is centred at (18, 18), and (6, 18) is timing only. -/
theorem test_mfunc_alignment_version_2 :
    after (exec .mfunc { State.reset with phase := .coded, ver := some .v2 })
      (fun t => Grid.get t.grid 18 18 == some .dark && Grid.get t.grid 17 18 == some .light &&
        Grid.get t.grid 16 20 == some .dark && Grid.get t.grid 8 18 == some .unassigned) := by decide +kernel

/-- V55: bits 0, 7 and 14 in both copies. -/
theorem test_mfmt_copies_version_1 :
    after (exec .mfmt { State.reset with phase := .func, ver := some .v1, grid := Grid.alloc 21 })
      (fun t => t.phase == .fmt && Grid.get t.grid 0 8 == some .light && Grid.get t.grid 8 20 == some .light &&
        Grid.get t.grid 8 8 == some .dark && Grid.get t.grid 8 13 == some .dark && Grid.get t.grid 8 0 == some .dark &&
        Grid.get t.grid 20 8 == some .dark && Grid.get t.grid 6 8 == some .unassigned) := by decide +kernel

/-- R130: the first eight cells for a first codeword 0x40 on a free grid: D D L D D L L D. -/
theorem test_mdata_first_cells :
    after (exec .mdata { State.reset with
        phase := .fmt, ver := some .v1, grid := Grid.alloc 21, cw := Memory.ofBytes (0x40 :: List.replicate 25 0) })
      (fun t => t.phase == .done &&
        ([(20, 20), (20, 19), (19, 20), (19, 19), (18, 20), (18, 19), (17, 20), (17, 19)].map fun rc =>
          Grid.get t.grid rc.1 rc.2) == [some .dark, some .dark, some .light, some .dark, some .dark, some .light,
            some .light, some .dark]) := by decide +kernel

/-- V60: GEN on the empty input; the last EC byte, and cells of the finished grid. -/
theorem test_gen_empty_input :
    after (exec .gen State.reset)
      (fun t => statusWord t == 0x00000016 && Memory.read t.cw 25 == some 0xD2 && Grid.get t.grid 20 20 == some .dark &&
        Grid.get t.grid 20 16 == some .light && Grid.get t.grid 12 0 == some .dark) := by decide +kernel

/-- V76: 135 bytes. -/
theorem test_gen_capacity_exceeded :
    after (exec .gen { State.reset with len := 135 }) (fun t => statusWord t == 0x00008707 && t.flt == .none) := by decide

/-- R84's example: LEN = 0x0B, VER = 1, PHASE = 1. -/
theorem test_rdstat_layout :
    after (step (presenting { State.reset with len := 11, ver := some .v1, phase := .selected } 0x10000000))
      (fun t => t.rsp == some 0x00000B11) := by decide

/-- V97's STATUS, with its fault code. -/
theorem test_rdstat_fault_code :
    after (step (presenting { State.reset with len := 1, ver := some .v1, phase := .packed, flt := .sequenceError } 0x10000000))
      (fun t => t.rsp == some 0x00020112) := by decide

/-- R152's example. -/
theorem test_rdflt :
    after (step (presenting { State.reset with flt := .sequenceError, finfo := 0x05000000 } 0x11000000))
      (fun t => t.rsp == some 0x05000000) := by decide

/-- V87 and V88: index 18 is the last of version 1. -/
theorem test_rddcw_boundary :
    after (step (presenting { State.reset with phase := .done, ver := some .v1, dcw := [(18, 0x11)] } 0x12120000))
      (fun t => t.rsp == some 0x11) ∧
    after (step (presenting { State.reset with phase := .done, ver := some .v1, dcw := [(18, 0x11)] } 0x12130000))
      (fun t => t.rsp == some 0 && t.flt == .indexRange && t.finfo == 0x12130000) := by decide

/-- V89 and V90. -/
theorem test_rdcw_boundary :
    after (step (presenting { State.reset with phase := .coded, ver := some .v1, cw := [(25, 0xF1)] } 0x13190000))
      (fun t => t.rsp == some 0xF1) ∧
    after (step (presenting { State.reset with phase := .coded, ver := some .v1, cw := [(25, 0xF1)] } 0x131A0000))
      (fun t => t.rsp == some 0 && t.flt == .indexRange) := by decide

/-- V91, V92, V93. -/
theorem test_rdmod_boundary :
    after (step (presenting
        { State.reset with phase := .done, ver := some .v1, grid := Grid.set (Grid.alloc 21) 20 20 .dark } 0x14141400))
      (fun t => t.rsp == some 1) ∧
    after (step (presenting { State.reset with phase := .done, ver := some .v1, grid := Grid.alloc 21 } 0x14150000))
      (fun t => t.flt == .indexRange) ∧
    after (step (presenting { State.reset with phase := .done, ver := some .v1, grid := Grid.alloc 21 } 0x14001500))
      (fun t => t.flt == .indexRange) := by decide +kernel

/-- V85: SequenceError comes before IndexRange. -/
theorem test_rdmod_priority :
    after (step (presenting State.reset 0x14C8C800)) (fun t => statusWord t == 0x00020000) := by decide

/-- V79, and V94: the first fault is kept. -/
theorem test_illegal_word_recorded_once :
    after (step (presenting State.reset 0x0B000000)) (fun t => t.flt == .illegalCommand && t.finfo == 0x0B000000) ∧
    after (step (presenting { State.reset with flt := .sequenceError, finfo := 0x05000000 } 0x0B000000))
      (fun t => t.flt == .sequenceError && t.finfo == 0x05000000) := by decide

/-- R180: reset clears the fault record; the host gets nothing back. -/
theorem test_reset_action :
    after (step { loaded 2 with flt := .sequenceError, finfo := 1, rsp := some 1, host := [.reset, .command 0] })
      (fun t => t == { State.reset with host := [.command 0] }) := by decide

/-- The capacity table meets the side conditions of R80, U6 and U12. -/
theorem test_default_config_sound : Config.default.sound = true := by decide

/-- The fetch places one word before what the host does next. -/
theorem test_withFetchWord :
    (State.reset.withFetchWord 32 0x02410000).host = [.command 0x02410000] ∧
      decodeTableWord 32 0x02410000 = some (.pushb 0x41) := by decide

/-! ### Witnesses: states and operands that meet the hypotheses of each statement -/

/-- A finished, or half-finished, call of the empty input meets the invariant, in every phase after VSEL. -/
theorem test_callState_invariant (p : Phase) (h : p.hasVersion = true) : (callState p .v1 []).Inv := by
  have hs : selectVersion 0 = some .v1 := by decide
  refine ⟨⟨[], ?_⟩, rfl⟩
  constructor
  · rfl
  · rfl
  · intro h'; exact absurd (show false = true from h') (by decide)
  · simp [callState, h, hs]
  · intro _; exact ⟨rfl, .v1, hs⟩
  · intro hp
    have : p = .error := hp
    subst this
    exact absurd h (by decide)
  · intro v hv
    have : v = .v1 := by simpa [callState] using hv.symm
    subst this
    exact ⟨rfl, rfl, rfl⟩
  · intro hv; cases hv

/-- The same for a call that has just been opened, with a word presented and a result kept. -/
theorem test_loadState_invariant (res w : Word) (rest : List HostAction) :
    ({ State.reset with res := res, host := .command w :: rest } : State).Inv := by
  refine ⟨⟨[], ?_⟩, rfl⟩
  constructor <;> simp [State.reset, Phase.hasVersion, Memory.ofBytes, Memory.store]

/-- ReservedOpcodeRaisesIllegalCommand: both ranges at their ends. -/
theorem test_witness_reserved_opcode :
    (presenting State.reset 0x0B123456).host = [.command 0x0B123456] ∧
      (∀ w ∈ ([0x0B123456, 0x0FFFFFFF] : List Word), 0x0B ≤ w.toNat / 2 ^ 24 ∧ w.toNat / 2 ^ 24 ≤ 0x0F) ∧
      ∀ w ∈ ([0x15000000, 0xFFFFFFFF] : List Word), 0x15 ≤ w.toNat / 2 ^ 24 := by
  simp [presenting]

/-- NonzeroUnusedFieldRaisesIllegalCommand: Z, then B, then A, each at its least and greatest value. -/
theorem test_witness_nonzero_unused_field :
    (∀ w ∈ ([0x03530001, 0x145353FF] : List Word), w.toNat % 256 ≠ 0) ∧
    (∀ w ∈ ([0x02410100, 0x0000FF00] : List Word),
      w.toNat / 2 ^ 8 % 256 ≠ 0 ∧ w.toNat / 2 ^ 24 ≠ 0x03 ∧ w.toNat / 2 ^ 24 ≠ 0x14) ∧
    (∀ w ∈ ([0x04010000, 0x0AFF0000] : List Word),
      w.toNat / 2 ^ 16 % 256 ≠ 0 ∧ w.toNat / 2 ^ 24 ≠ 0x02 ∧ w.toNat / 2 ^ 24 ≠ 0x03 ∧ w.toNat / 2 ^ 24 ≠ 0x12 ∧
        w.toNat / 2 ^ 24 ≠ 0x13 ∧ w.toNat / 2 ^ 24 ≠ 0x14) := by
  simp

/-- OperandsAreWordFields: each operand form, with operands at the ends of their range. -/
theorem test_witness_operands :
    decode 0x02FF0000 = .ok (.pushb 0xFF) ∧ decode 0x12000000 = .ok (.rddcw 0) ∧ decode 0x13FF0000 = .ok (.rdcw 0xFF) ∧
      decode 0x03FF0000 = .ok (.gfmul 0xFF 0) ∧ decode 0x1400FF00 = .ok (.rdmod 0 0xFF) :=
  ⟨rfl, rfl, rfl, rfl, rfl⟩

/-- StepRunsDecodedCommand and ResponseIsResult (whose step answers a next state). -/
theorem test_witness_presented_command :
    (presenting State.reset 0x04000000).host = [.command 0x04000000] ∧ decode 0x04000000 = .ok .vsel ∧
      step (presenting State.reset 0x04000000)
        = .next { State.reset with ver := some .v1, phase := .selected, rsp := some 0 } := by
  exact ⟨rfl, rfl, rfl⟩

/-- ResetActionRestoresResetState and IdleKeepsState. -/
theorem test_witness_reset_and_idle :
    ({ loaded 1 with host := [.reset, .reset] } : State).host = .reset :: [.reset] ∧ (loaded 1).host = [] := by decide

/-- StepKeepsInvariant and StepNeverStops: a state that meets the invariant and steps. -/
theorem test_witness_invariant :
    ({ State.reset with res := 7, host := [.command 0] } : State).Inv ∧
      step { State.reset with res := 7, host := [.command 0] } = .next { State.reset with res := 7, rsp := some 7 } :=
  ⟨test_loadState_invariant 7 0 [], rfl⟩

/-- IllegalPhaseRaisesSequenceError: a phase where PACK is not legal, and one where it is, with a fault on record. -/
theorem test_witness_illegal_phase :
    State.reset.phase ∉ legalPhases .pack ∧ Phase.selected ∈ legalPhases .pack ∧
      exec .rdflt { State.reset with flt := .sequenceError } = .next { State.reset with flt := .sequenceError } :=
  ⟨by decide, by decide, rfl⟩

/-- PhaseMovesAsCommanded, CommandsLeaveHostPort, EachBufferHasItsWriters, ResultWrittenByReadersOnly: commands that answer
a next state, one that meets every inequation, one that produces no result, and one that records a fault. -/
theorem test_witness_exec_answers :
    exec .rdflt State.reset = .next State.reset ∧ exec .nop State.reset = .next State.reset ∧
      exec .pack State.reset = .next { State.reset with flt := .sequenceError, finfo := 0x05000000 } :=
  ⟨rfl, rfl, rfl⟩

/-- FirstFaultIsKept: a fault on record, an illegal word, a command out of phase, and an index out of range. -/
theorem test_witness_first_fault_kept :
    (presenting { State.reset with flt := .illegalCommand } 0x05000000).flt ≠ .none ∧
      step (presenting { State.reset with flt := .illegalCommand } 0x05000000)
        = .next { State.reset with flt := .illegalCommand, rsp := some 0 } ∧
      (∀ i, decode 0x05000000 = .ok i → State.reset.phase ∉ legalPhases i) := by
  refine ⟨by decide, rfl, ?_⟩
  intro i hi
  have : i = .pack := by
    have e : decode 0x05000000 = .ok .pack := rfl
    rw [e] at hi
    cases hi
    rfl
  subst this
  decide

theorem test_witness_later_index_fault :
    Phase.done ∈ legalPhases (.rddcw 19) ∧ indexBeyond .v1 (.rddcw 19) ∧
      Phase.done ∈ legalPhases (.rdcw 26) ∧ indexBeyond .v1 (.rdcw 26) ∧
      Phase.done ∈ legalPhases (.rdmod 21 0) ∧ indexBeyond .v1 (.rdmod 21 0) ∧ indexBeyond .v1 (.rdmod 0 21) ∧
      step (presenting { State.reset with phase := .done, ver := some .v1, flt := .illegalCommand } 0x12130000)
        = .next { State.reset with phase := .done, ver := some .v1, flt := .illegalCommand, rsp := some 0 } := by
  refine ⟨by decide, ?_, by decide, ?_, by decide, ?_, ?_, rfl⟩
  · exact (by decide : (cap .v1).dataCodewords ≤ (19 : Byte).toNat)
  · exact (by decide : (cap .v1).totalCodewords ≤ (26 : Byte).toNat)
  · exact .inl (by decide)
  · exact .inr (by decide)

/-- BuffersStayCanonical. -/
theorem test_witness_canonical_buffers :
    Memory.wf (loaded 2).inp ∧ Memory.wf (loaded 2).dcw ∧ Memory.wf (loaded 2).cw ∧ step (loaded 2) = .next (loaded 2) := by
  refine ⟨by decide, by decide, by decide, rfl⟩

/-- LogInvertsExp, FieldLaws, GfmulWritesProduct: non-zero and zero operands. -/
theorem test_witness_field_operands : (1 : Byte) ≠ 0 ∧ (0xFF : Byte) ≠ 0 ∧ (0 : Byte) = 0 := by decide

/-- GeneratorPolynomialShape, SyndromesVanish, EncoderIsLinear. -/
theorem test_witness_encoder : 1 ≤ 7 ∧ 6 < 7 ∧ ([1, 2] : List Byte).length = ([3, 4] : List Byte).length := by decide

/-- SelectorTakesFirstFit: a length that fits and one that does not, at the boundary. -/
theorem test_witness_selector : selectVersion 134 = some .v6 ∧ selectVersion 135 = none := by decide

/-- VselSelectsVersion and CapacityExceededEntry, at the boundary of their clauses. -/
theorem test_witness_vsel :
    (loaded 134).phase = .load ∧ (loaded 134).ovf = false ∧ (loaded 134).len.toNat ≤ 134 ∧
      135 ≤ (loaded 135).len.toNat ∧ ({ loaded 255 with ovf := true } : State).ovf = true ∧
      exec .vsel { State.reset with len := 134 } = .next { State.reset with len := 134, ver := some .v6, phase := .selected } := by
  refine ⟨by decide, by decide, by decide, by decide, by decide, rfl⟩

/-- PackBuildsDataCodewords: the longest input of version 1, and the empty one. -/
theorem test_witness_pack (input : List Byte) (h : input.length + 2 ≤ 19) :
    (callState .selected .v1 input).phase = .selected ∧ (callState .selected .v1 input).ver = some .v1 ∧
      (callState .selected .v1 input).len.toNat = input.length ∧ holds (callState .selected .v1 input).inp input ∧
      input.length + 2 ≤ (cap .v1).dataCodewords := by
  refine ⟨rfl, rfl, ?_, fun i _ => by simp [callState], h⟩
  simp only [callState, BitVec.toNat_ofNat]
  omega

/-- IlvOneBlock and IlvTwoBlocks. -/
theorem test_witness_ilv (v : Version) (data : List Byte) (h : data.length = (cap v).dataCodewords) :
    ({ State.reset with phase := .packed, ver := some v, dcw := Memory.ofBytes data } : State).phase = .packed ∧
      data.length = (cap v).dataCodewords ∧ holds (Memory.ofBytes data) data :=
  ⟨rfl, h, fun i _ => by simp⟩

theorem test_witness_ilv_lengths :
    (List.replicate 108 (0 : Byte)).length = (cap .v5).dataCodewords ∧ Version.v5 ≠ .v6 ∧
      (List.replicate 136 (0 : Byte)).length = (cap .v6).dataCodewords := by decide

/-- MfuncPlacesPatterns, MfmtWritesBothCopies, MdataPlacesMaskedBits. -/
theorem test_witness_matrix :
    (callState .coded .v1 []).phase = .coded ∧ (callState .coded .v1 []).ver = some .v1 ∧
      (callState .func .v1 []).phase = .func ∧ Grid.isSquare (callState .func .v1 []).grid Version.v1.size = true ∧
      (callState .fmt .v1 []).phase = .fmt ∧ Grid.isSquare (callState .fmt .v1 []).grid Version.v1.size = true := by
  have hf : Grid.isSquare (funcGridOf .v1) Version.v1.size = true := isSquare_functionalGrid Version.v1.size _
  have hm : Grid.isSquare (fmtGridOf .v1) Version.v1.size = true := by rw [fmtGridOf, isSquare_placeFormat]; exact hf
  have shape (p : Phase) (v : Version) : (callState p v []).grid = gridIn p v [] := rfl
  refine ⟨rfl, rfl, rfl, ?_, rfl, ?_⟩
  · rw [shape, gridIn]; exact hf
  · rw [shape, gridIn]; exact hm

/-- TraversalVisitsEachCellOnce: the first places as R125 lists them for version 1, then the last place before the step over
column 6, the first after it, and the last of all. -/
theorem test_witness_traversal :
    (traversal 21).take 6 = [(20, 20), (20, 19), (19, 20), (19, 19), (18, 20), (18, 19)] ∧
      (traversal 21)[2 * 21 * 6 + 2 * 20 + 1]? = some (0, 7) ∧ (traversal 21)[2 * 21 * 7]? = some (0, 5) ∧
      (traversal 21)[2 * 21 * 9 + 2 * 20 + 1]? = some (20, 0) ∧
      zigzagCell 21 6 20 1 = (0, 7) ∧ zigzagCell 21 7 0 0 = (0, 5) ∧ zigzagCell 21 9 20 1 = (20, 0) ∧
      9 < (Version.v1.size - 1) / 2 := by decide +kernel

theorem test_witness_mdata :
    (List.replicate 26 (0 : Byte)).length = (cap .v1).totalCodewords ∧
      holds (Memory.ofBytes (List.replicate 26 0)) (List.replicate 26 0) ∧ Grid.isSquare (Grid.alloc 21) 21 = true ∧
      (freeCells (Grid.alloc 21) (traversal 21))[0]? = some (20, 20) ∧
      (20, 6) ∉ freeCells (Grid.alloc 21) (traversal 21) := by
  refine ⟨by decide, fun i _ => by simp, by simp, by decide +kernel, by decide +kernel⟩

/-- FinishedGridIsAssigned and PatternsSurviveInFinishedGrid: the finished call of the empty input. -/
theorem test_witness_finished :
    (callState .done .v1 []).Inv ∧ (callState .done .v1 []).phase = .done ∧ (callState .done .v1 []).ver = some .v1 ∧
      20 < Version.v1.size ∧ functionalCell .v1 0 0 ≠ .unassigned :=
  ⟨test_callState_invariant .done rfl, rfl, rfl, by decide, by decide⟩

/-- PushbAppendsByte, at the boundary of its two clauses; ClearOpensFreshCall's last clause. -/
theorem test_witness_pushb :
    State.reset.phase = .load ∧ ({ State.reset with len := 254 } : State).len.toNat < 255 ∧
      ({ State.reset with len := 255 } : State).len.toNat = 255 ∧ (loaded 1).flt = .none ∧ (loaded 1).finfo = 0 ∧
      (loaded 1).res = 0 := by decide

/-- GenEqualsStageCommands, in its two clauses. -/
theorem test_witness_gen_stages :
    exec .vsel State.reset = .next { State.reset with ver := some .v1, phase := .selected } ∧
      exec .vsel { State.reset with len := 135 } = .next { State.reset with len := 135, ver := none, phase := .error } :=
  ⟨rfl, rfl⟩

/-- GenFinishesSymbol. -/
theorem test_witness_gen_input : CallInv State.reset [] ∧ State.reset.phase = .load ∧ State.reset.ovf = false ∧
    State.reset.len.toNat ≤ 134 := by
  refine ⟨?_, rfl, rfl, by decide⟩
  constructor <;> simp [State.reset, Phase.hasVersion, Memory.ofBytes, Memory.store]

/-- GenDependsOnInputOnly: two states that differ in RES and in what the host does next; GEN answers in each
(for the first see test_gen_empty_input). -/
theorem test_witness_gen_inputs :
    State.reset.Inv ∧ ({ State.reset with res := 4, host := [.command 0] } : State).Inv ∧
      after (exec .gen { State.reset with res := 4, host := [.command 0] }) (fun t => t.phase == .done && t.res == 4) := by
  refine ⟨⟨⟨[], ?_⟩, rfl⟩, test_loadState_invariant 4 0 [], by decide +kernel⟩
  constructor <;> simp [State.reset, Phase.hasVersion, Memory.ofBytes, Memory.store]

/-- RddcwReadsDataCodeword, RdcwReadsCodeword and RdmodReadsModule at the boundary of their clauses. -/
theorem test_witness_readout :
    Phase.done ∈ [Phase.packed, .coded, .func, .fmt, .done] ∧ (18 : Byte).toNat < (cap .v1).dataCodewords ∧
      Memory.read (Memory.ofBytes (List.replicate 19 0)) (18 : Byte).toNat = some 0 ∧
      (cap .v1).dataCodewords ≤ (19 : Byte).toNat ∧ (25 : Byte).toNat < (cap .v1).totalCodewords ∧
      Memory.read (Memory.ofBytes (List.replicate 26 0)) (25 : Byte).toNat = some 0 ∧
      (cap .v1).totalCodewords ≤ (26 : Byte).toNat := by decide

theorem test_witness_rdmod :
    (20 : Byte).toNat < Version.v1.size ∧ Version.v1.size ≤ (21 : Byte).toNat ∧
      Grid.isSquare (Grid.set (Grid.set (Grid.alloc 21) 20 20 .dark) 0 20 .light) 21 = true ∧
      Grid.get (Grid.set (Grid.set (Grid.alloc 21) 20 20 .dark) 0 20 .light) 20 20 = some .dark ∧
      Grid.get (Grid.set (Grid.set (Grid.alloc 21) 20 20 .dark) 0 20 .light) 0 20 = some .light := by decide +kernel

end Sys2Proof.Tests
end

/-! ### The rule of a command, apart from its phase check -/

section
namespace Sys2Proof.Machine

open Sys2Proof.Claims

variable {s t : State}

/-- What a command does in a phase where it is legal (R49 step 4). -/
def ruleOf : Instr → State → Host.Outcome State Fault Refusal
  | .nop, s => .next s
  | .clear, s => .next s.clearCall
  | .pushb a, s => .next (pushbBody a s)
  | .gfmul a b, s => .next (s.writeRes (zext32 (gfmul a b)))
  | .vsel, s => .next (vselBody s)
  | .pack, s => packBody s
  | .ilv, s => ilvBody s
  | .mfunc, s => mfuncBody s
  | .mfmt, s => mfmtBody s
  | .mdata, s => mdataBody s
  | .gen, s => genBody s
  | .rdstat, s => .next (s.writeRes (statusWord s))
  | .rdflt, s => .next (s.writeRes s.finfo)
  | .rddcw a, s => withVersion s fun v =>
      checkIndex (.rddcw a) s (indexOf a < (cap v).dataCodewords) (readByte .dcw s.dcw a s)
  | .rdcw a, s => withVersion s fun v =>
      checkIndex (.rdcw a) s (indexOf a < (cap v).totalCodewords) (readByte .cw s.cw a s)
  | .rdmod a b, s => withVersion s fun v =>
      checkIndex (.rdmod a b) s (indexOf a < v.size ∧ indexOf b < v.size)
        (withGrid s v.size fun g => .next (s.writeRes (moduleValue (Grid.get g (indexOf a) (indexOf b)))))

/-- Every command is its rule under the phase check (R49 steps 3 and 4). -/
theorem exec_eq_guarded_ruleOf (i : Instr) (s : State) : exec i s = guarded i s (ruleOf i) := by
  cases i <;> rfl

/-- A command that answers has run its rule in a legal phase, or has recorded SequenceError. -/
theorem exec_next {i : Instr} (h : exec i s = .next t) :
    (legal i s.phase = true ∧ ruleOf i s = .next t) ∨
      (legal i s.phase = false ∧ t = s.raise .sequenceError (encode i)) := by
  rw [exec_eq_guarded_ruleOf] at h
  exact guarded_next h

/-! ### What a rule writes -/

theorem checkIndex_readByte_next {i : Instr} {p : Prop} [Decidable p] {sp : Space} {m : Memory} {a : Byte}
    (h : checkIndex i s p (readByte sp m a s) = .next t) :
    (∃ w, t = s.writeRes w) ∨ t = s.raise .indexRange (encode i) := by
  obtain ⟨-, h⟩ | ⟨-, rfl⟩ := checkIndex_next h
  · obtain ⟨v, -, rfl⟩ := readByte_next h
    exact .inl ⟨_, rfl⟩
  · exact .inr rfl

/-- A result-producing command writes RES and nothing else, or records IndexRange and does nothing else (R22, R164). -/
theorem ruleOf_next_of_producesResult {i : Instr} (hi : producesResult i = true) (h : ruleOf i s = .next t) :
    (∃ w, t = s.writeRes w) ∨ t = s.raise .indexRange (encode i) := by
  cases i with
  | gfmul | rdstat | rdflt => exact .inl ⟨_, (Host.Outcome.next.inj h).symm⟩
  | rddcw | rdcw =>
    obtain ⟨v, -, h⟩ := withVersion_next h
    exact checkIndex_readByte_next h
  | rdmod =>
    obtain ⟨v, -, h⟩ := withVersion_next h
    obtain ⟨-, h⟩ | ⟨-, rfl⟩ := checkIndex_next h
    · obtain ⟨-, h⟩ := withGrid_next h
      exact .inl ⟨_, (Host.Outcome.next.inj h).symm⟩
    · exact .inr rfl
  | nop | clear | pushb | vsel | pack | ilv | mfunc | mfmt | mdata | gen => cases hi

/-- The registers that outlive a call and that only reads and faults write: RES and the fault record. -/
def sameRecords (s t : State) : Prop :=
  t.res = s.res ∧ t.flt = s.flt ∧ t.finfo = s.finfo

theorem sameRecords.trans {u : State} (h : sameRecords s t) (h' : sameRecords t u) : sameRecords s u := by
  obtain ⟨hres, hflt, hfinfo⟩ := h
  obtain ⟨hres', hflt', hfinfo'⟩ := h'
  exact ⟨hres'.trans hres, hflt'.trans hflt, hfinfo'.trans hfinfo⟩

theorem sameRecords_pushbBody (a : Byte) (s : State) : sameRecords s (pushbBody a s) := by
  obtain ⟨-, h⟩ | ⟨-, h⟩ := pushbBody_cases a s <;> rw [h] <;> exact ⟨rfl, rfl, rfl⟩

theorem sameRecords_vselBody (s : State) : sameRecords s (vselBody s) := by
  obtain ⟨v, -, -, h⟩ | ⟨-, h⟩ := vselBody_cases s <;> rw [h] <;> exact ⟨rfl, rfl, rfl⟩

theorem sameRecords_packBody (h : packBody s = .next t) : sameRecords s t := by
  obtain ⟨v, input, -, -, rfl⟩ := packBody_next h
  exact ⟨rfl, rfl, rfl⟩

theorem sameRecords_ilvBody (h : ilvBody s = .next t) : sameRecords s t := by
  obtain ⟨v, data, -, -, rfl⟩ := ilvBody_next h
  exact ⟨rfl, rfl, rfl⟩

theorem sameRecords_mfuncBody (h : mfuncBody s = .next t) : sameRecords s t := by
  obtain ⟨v, -, rfl⟩ := mfuncBody_next h
  exact ⟨rfl, rfl, rfl⟩

theorem sameRecords_mfmtBody (h : mfmtBody s = .next t) : sameRecords s t := by
  obtain ⟨v, -, -, rfl⟩ := mfmtBody_next h
  exact ⟨rfl, rfl, rfl⟩

theorem sameRecords_mdataBody (h : mdataBody s = .next t) : sameRecords s t := by
  obtain ⟨v, cws, -, -, -, rfl⟩ := mdataBody_next h
  exact ⟨rfl, rfl, rfl⟩

theorem sameRecords_genBody (h : genBody s = .next t) : sameRecords s t := by
  obtain ⟨-, rfl⟩ | ⟨-, s2, s3, s4, s5, h2, h3, h4, h5, h6⟩ := genBody_next h
  · exact sameRecords_vselBody s
  · exact (sameRecords_vselBody s).trans <| (sameRecords_packBody h2).trans <| (sameRecords_ilvBody h3).trans <|
      (sameRecords_mfuncBody h4).trans <| (sameRecords_mfmtBody h5).trans (sameRecords_mdataBody h6)

/-- The rule of a command that produces no result leaves RES, FLT and FINFO (R22). -/
theorem sameRecords_ruleOf {i : Instr} (hi : producesResult i = false) (h : ruleOf i s = .next t) :
    sameRecords s t := by
  cases i with
  | nop | clear => cases h; exact ⟨rfl, rfl, rfl⟩
  | pushb a => cases h; exact sameRecords_pushbBody a s
  | vsel => cases h; exact sameRecords_vselBody s
  | pack => exact sameRecords_packBody h
  | ilv => exact sameRecords_ilvBody h
  | mfunc => exact sameRecords_mfuncBody h
  | mfmt => exact sameRecords_mfmtBody h
  | mdata => exact sameRecords_mdataBody h
  | gen => exact sameRecords_genBody h
  | gfmul | rdstat | rdflt | rddcw | rdcw | rdmod => cases hi

/-! ### Where a rule moves PHASE -/

theorem vselBody_phase (s : State) : (vselBody s).phase = .selected ∨ (vselBody s).phase = .error := by
  obtain ⟨v, -, -, h⟩ | ⟨-, h⟩ := vselBody_cases s
  · exact .inl (by rw [h])
  · exact .inr (by rw [h, State.failCapacity_phase])

theorem pushbBody_phase (a : Byte) (s : State) : (pushbBody a s).phase = s.phase := by
  obtain ⟨-, h⟩ | ⟨-, h⟩ := pushbBody_cases a s <;> rw [h]

theorem genBody_phase (h : genBody s = .next t) : t.phase = .done ∨ t.phase = .error := by
  obtain ⟨hp, rfl⟩ | ⟨-, s2, s3, s4, s5, -, -, -, -, h6⟩ := genBody_next h
  · exact .inr hp
  · obtain ⟨v, cws, -, -, -, rfl⟩ := mdataBody_next h6
    exact .inl rfl

/-- CLEAR may be issued in every phase, and ends in LOAD (R141). -/
theorem clear_move (p : Phase) : Phase.load = p ∨ (p, Phase.load) ∈ phaseMoves .clear := by
  cases p <;> decide

/-- A rule run in a legal phase keeps PHASE or makes one of its command's moves (R12). -/
theorem ruleOf_phaseMoves {i : Instr} (hl : legal i s.phase = true) (h : ruleOf i s = .next t) :
    t.phase = s.phase ∨ (s.phase, t.phase) ∈ phaseMoves i := by
  cases i with
  | nop => cases h; exact .inl rfl
  | clear => cases h; exact clear_move s.phase
  | pushb a => cases h; exact .inl (pushbBody_phase a s)
  | vsel =>
    cases h
    obtain hp | hp := vselBody_phase s <;> simp_all [legal, phaseMoves]
  | pack =>
    obtain ⟨v, input, -, -, rfl⟩ := packBody_next h
    exact .inr (by simpa [legal, phaseMoves] using hl)
  | ilv =>
    obtain ⟨v, data, -, -, rfl⟩ := ilvBody_next h
    exact .inr (by simpa [legal, phaseMoves] using hl)
  | mfunc =>
    obtain ⟨v, -, rfl⟩ := mfuncBody_next h
    exact .inr (by simpa [legal, phaseMoves] using hl)
  | mfmt =>
    obtain ⟨v, -, -, rfl⟩ := mfmtBody_next h
    exact .inr (by simpa [legal, phaseMoves] using hl)
  | mdata =>
    obtain ⟨v, cws, -, -, -, rfl⟩ := mdataBody_next h
    exact .inr (by simpa [legal, phaseMoves] using hl)
  | gen => obtain hp | hp := genBody_phase h <;> simp_all [legal, phaseMoves]
  | gfmul | rdstat | rdflt | rddcw | rdcw | rdmod =>
    obtain ⟨w, rfl⟩ | rfl := ruleOf_next_of_producesResult rfl h
    · exact .inl rfl
    · exact .inl (State.raise_phase _ _ _)

/-- Settles O16: the phase check keeps PHASE, and each rule makes its own moves only. -/
theorem phaseMovesAsCommanded : Obligations.PhaseMovesAsCommanded := by
  intro i s t h
  obtain ⟨hl, h⟩ | ⟨-, rfl⟩ := exec_next h
  · exact ruleOf_phaseMoves hl h
  · exact .inl (State.raise_phase _ _ _)

/-- Settles O17: a rule either leaves RES, or writes RES and leaves FLT, or records a fault and leaves RES. -/
theorem resultWrittenByReadersOnly : Obligations.ResultWrittenByReadersOnly := by
  intro i s t h
  obtain ⟨-, h⟩ | ⟨-, rfl⟩ := exec_next h
  · cases hi : producesResult i with
    | false =>
      obtain ⟨hres, -, -⟩ := sameRecords_ruleOf hi h
      exact ⟨fun _ => hres, fun _ => hres⟩
    | true =>
      refine ⟨nofun, fun hflt => ?_⟩
      obtain ⟨w, rfl⟩ | rfl := ruleOf_next_of_producesResult hi h
      · exact absurd rfl hflt
      · exact State.raise_res _ _ _
  · exact ⟨fun _ => State.raise_res _ _ _, fun _ => State.raise_res _ _ _⟩

/-! ### One step of the host's list -/

theorem step_idle (h : s.host = []) : step s = .next s := by
  simp [step, h]

theorem step_command {w : Word} {rest : List HostAction} (h : s.host = .command w :: rest) :
    step s = runCommand exec w (s.withHost rest) := by
  simp [step, h]

theorem step_reset {rest : List HostAction} (h : s.host = .reset :: rest) : step s = .next (applyReset rest) := by
  simp [step, h]

theorem runCommand_ok {ex : Instr → State → Host.Outcome State Fault Refusal} {w : Word} {i : Instr}
    (h : decode w = .ok i) : runCommand ex w s = andThen (ex i s) fun t => .next t.respond := by
  simp [runCommand, h]

theorem runCommand_error {ex : Instr → State → Host.Outcome State Fault Refusal} {w : Word} {e : Reject}
    (h : decode w = .error e) : runCommand ex w s = .next (s.raise .illegalCommand w).respond := by
  simp [runCommand, h]

/-- Settles O8: the step takes the word off the host's list, and the decoder names the command. -/
theorem stepRunsDecodedCommand : Obligations.StepRunsDecodedCommand := by
  intro s w rest i hhost hdec
  rw [step_command hhost, runCommand_ok hdec]
  rfl

end Sys2Proof.Machine
end

/-! ### How many codewords the stages make -/

section
namespace Sys2Proof.Machine

@[simp] theorem length_padBytes (n : Nat) (first : Bool) : (padBytes n first).length = n := by
  induction n generalizing first with
  | zero => rfl
  | succ n ih => simp [padBytes, ih]

theorem length_fillTo (dc : Nat) (out : List Byte) : (fillTo dc out).length = dc := by
  simp only [fillTo, List.length_take, List.length_append, length_padBytes]
  omega

/-- PACK makes exactly as many bytes as the version has data codewords (R94, R95). -/
theorem length_dataOf (v : Version) (input : List Byte) : (dataOf v input).length = (cap v).dataCodewords :=
  length_fillTo _ _

theorem length_mulFactor (a prev : Byte) (g : List Byte) : (mulFactor a prev g).length = g.length + 1 := by
  induction g generalizing prev with
  | nil => rfl
  | cons c g ih => simp [mulFactor, ih]

theorem length_genpoly (n : Nat) : (genpoly n).length = n + 1 := by
  induction n with
  | zero => rfl
  | succ n ih => rw [genpoly, length_mulFactor, ih]

/-- The accumulator of R71 keeps its length, which is the number of the generator's taps. -/
theorem length_rsStep {taps r : List Byte} (hr : r ≠ []) (ht : taps.length = r.length) (d : Byte) :
    (rsStep taps r d).length = r.length := by
  have hpos : 0 < r.length := List.length_pos_iff.mpr hr
  unfold rsStep divStep
  split
  · simp only [List.length_append, List.length_tail, List.length_singleton]
    omega
  · simp only [mulXor, List.length_zipWith, List.length_append, List.length_tail, List.length_singleton]
    omega

theorem length_foldl_rsStep {taps : List Byte} (data r : List Byte) (hr : r ≠ []) (ht : taps.length = r.length) :
    (data.foldl (rsStep taps) r).length = r.length := by
  induction data generalizing r with
  | nil => rfl
  | cons d data ih =>
    have hlen := length_rsStep hr ht d
    have hne : rsStep taps r d ≠ [] := List.ne_nil_of_length_pos (hlen ▸ List.length_pos_iff.mpr hr)
    rw [List.foldl_cons, ih _ hne (ht.trans hlen.symm), hlen]

/-- The encoder returns n bytes (R71). -/
theorem length_rsEncode (data : List Byte) {n : Nat} (hn : 1 ≤ n) : (rsEncode data n).length = n := by
  have hne : List.replicate n (0 : Byte) ≠ [] := List.ne_nil_of_length_pos (by rwa [List.length_replicate])
  have ht : (genpoly n).tail.length = (List.replicate n (0 : Byte)).length := by simp [length_genpoly]
  rw [rsEncode, length_foldl_rsStep data _ hne ht, List.length_replicate]

/-- A round-robin pass takes one byte of every block at each of its positions (R102). -/
theorem length_roundRobin {n : Nat} {blocks : List (List Byte)} (h : ∀ b ∈ blocks, b.length = n) :
    (roundRobin n blocks).length = n * blocks.length := by
  have hpos : ∀ i ∈ List.range n, (blocks.filterMap fun b => b[i]?).length = blocks.length := by
    intro i hi
    refine List.filterMap_length_eq_length.mpr fun b hb => ?_
    simpa [h b hb] using hi
  rw [roundRobin, List.length_flatMap, List.map_congr_left hpos, List.map_const', List.sum_replicate_nat,
    List.length_range]

theorem length_interleave {n m : Nat} {blocks : List (List Byte)} (hn : 1 ≤ n) (hb : ∀ b ∈ blocks, b.length = m)
    (hl : longest blocks = m) : (interleave n blocks).length = m * blocks.length + n * blocks.length := by
  have hec : ∀ b ∈ ecOf n blocks, b.length = n := by simp [ecOf, length_rsEncode _ hn]
  rw [interleave, List.length_append, hl, length_roundRobin hb, length_roundRobin hec, ecOf, List.length_map]

/-- An even split (U6) gives blocks of equal length. -/
theorem splitBlocks_even {data : List Byte} {k : BlockCount} (h : data.length % k.toNat = 0) :
    (∀ b ∈ splitBlocks data k, b.length = data.length / k.toNat) ∧
      longest (splitBlocks data k) = data.length / k.toNat ∧ (splitBlocks data k).length = k.toNat := by
  cases k with
  | one => simp [splitBlocks, longest, BlockCount.toNat]
  | two =>
    have hhalf : data.length - data.length / 2 = data.length / 2 := by simp only [BlockCount.toNat] at h; omega
    have hmin : min (data.length / 2) data.length = data.length / 2 := by omega
    simp [splitBlocks, longest, BlockCount.toNat, hhalf, hmin]

/-- With an even split and a balanced entry (R80, U6) there are exactly as many codewords as the grid takes. -/
theorem length_finalCodewords {e : CapEntry} {data : List Byte} (hbal : e.balanced = true)
    (heven : e.splitsEvenly = true) (hn : 1 ≤ e.ecCodewordsPerBlock) (hd : data.length = e.dataCodewords) :
    (finalCodewords e data).length = e.totalCodewords := by
  have hmod : data.length % e.blockCount.toNat = 0 := by simpa [CapEntry.splitsEvenly, hd] using heven
  have htotal : e.totalCodewords = e.dataCodewords + e.ecCodewordsPerBlock * e.blockCount.toNat := by
    simpa [CapEntry.balanced] using hbal
  obtain ⟨hlen, hlongest, hcount⟩ := splitBlocks_even hmod
  rw [finalCodewords, length_interleave hn hlen hlongest, hcount, Nat.div_mul_cancel (Nat.dvd_of_mod_eq_zero hmod), hd,
    htotal]

/-- The entries of R81 meet the side conditions of R80 and U6. -/
theorem cap_sound (v : Version) :
    (cap v).balanced = true ∧ (cap v).splitsEvenly = true ∧ 1 ≤ (cap v).ecCodewordsPerBlock := by
  cases v <;> decide

theorem length_codewordsOf (v : Version) (input : List Byte) :
    (codewordsOf v input).length = (cap v).totalCodewords := by
  obtain ⟨hbal, heven, hn⟩ := cap_sound v
  rw [codewordsOf, List.length_take, length_finalCodewords hbal heven hn (length_dataOf v input), Nat.min_self]

/-! ### The shape of the grids the stages make -/

theorem isSquare_funcGridOf (v : Version) : Grid.isSquare (funcGridOf v) v.size = true :=
  isSquare_functionalGrid _ _

theorem isSquare_fmtGridOf (v : Version) : Grid.isSquare (fmtGridOf v) v.size = true := by
  rw [fmtGridOf, isSquare_placeFormat, isSquare_funcGridOf]

theorem isSquare_symbolOf (v : Version) (input : List Byte) : Grid.isSquare (symbolOf v input) v.size = true := by
  rw [symbolOf, isSquare_placeData, isSquare_fmtGridOf]

end Sys2Proof.Machine
end

/-! ### The states of a call that a stage command leaves -/

section
namespace Sys2Proof.Machine

variable {s t : State} {input : List Byte}

/-- The state with the phase `p` after VSEL, and the version, the buffers and the grid as the stages up to `p` make them
of `input`. -/
def State.atStage (s : State) (p : Phase) (v : Version) (input : List Byte) : State :=
  { s with
    phase := p
    ver := some v
    dcw := if p.hasData then Memory.ofBytes (dataOf v input) else []
    cw := if p.hasCodewords then Memory.ofBytes (codewordsOf v input) else []
    grid := gridIn p v input }

@[simp] theorem State.atStage_ver (s : State) (p : Phase) (v : Version) (input : List Byte) :
    (s.atStage p v input).ver = some v := rfl

@[simp] theorem State.atStage_dcw (s : State) (p : Phase) (v : Version) (input : List Byte) :
    (s.atStage p v input).dcw = if p.hasData then Memory.ofBytes (dataOf v input) else [] := rfl

@[simp] theorem State.atStage_cw (s : State) (p : Phase) (v : Version) (input : List Byte) :
    (s.atStage p v input).cw = if p.hasCodewords then Memory.ofBytes (codewordsOf v input) else [] := rfl

@[simp] theorem State.atStage_grid (s : State) (p : Phase) (v : Version) (input : List Byte) :
    (s.atStage p v input).grid = gridIn p v input := rfl

/-- In a phase that has a version, a state of a call is the one its stages leave. -/
theorem CallInv.exists_atStage_eq (h : CallInv s input) (hp : s.phase.hasVersion = true) :
    ∃ v, s.ovf = false ∧ selectVersion input.length = some v ∧ s.atStage s.phase v input = s := by
  obtain ⟨hovf, v, hsel⟩ := h.fits hp
  have hver : s.ver = some v := by rw [h.ver_eq, if_pos hp, hsel]
  obtain ⟨hdcw, hcw, hgrid⟩ := h.stage v hver
  refine ⟨v, hovf, hsel, ?_⟩
  rw [State.atStage, ← hver, ← hdcw, ← hcw, ← hgrid]

/-- A state that the stages leave belongs to the call. -/
theorem CallInv.atStage (h : CallInv s input) {p : Phase} {v : Version} (hp : p.hasVersion = true)
    (hovf : s.ovf = false) (hsel : selectVersion input.length = some v) : CallInv (s.atStage p v input) input where
  len_eq := h.len_eq
  inp_eq := h.inp_eq
  ovf_full := h.ovf_full
  ver_eq := by simp [State.atStage, hp, hsel]
  fits _ := ⟨hovf, v, hsel⟩
  error_only he := by
    have he : p = .error := he
    subst he
    cases hp
  stage u hu := by
    cases hu
    exact ⟨rfl, rfl, rfl⟩
  empty hnone := by cases hnone

theorem CallInv.len_eq_ofNat (h : CallInv s input) : s.len = BitVec.ofNat 8 input.length := by
  rw [← h.len_eq, BitVec.ofNat_toNat, BitVec.setWidth_eq]

theorem CallInv.load_inp (h : CallInv s input) : Memory.load s.inp 0 s.len.toNat = some input := by
  rw [h.len_eq, h.inp_eq, Memory.load_ofBytes]

theorem load_dataOf (v : Version) (input : List Byte) :
    Memory.load (Memory.ofBytes (dataOf v input)) 0 (cap v).dataCodewords = some (dataOf v input) := by
  rw [← length_dataOf v input, Memory.load_ofBytes]

theorem load_codewordsOf (v : Version) (input : List Byte) :
    Memory.load (Memory.ofBytes (codewordsOf v input)) 0 (cap v).totalCodewords = some (codewordsOf v input) := by
  rw [← length_codewordsOf v input, Memory.load_ofBytes]

/-! Each stage takes the state that the stages before it leave to the next one. -/

theorem packBody_atStage (h : CallInv s input) (v : Version) :
    packBody (s.atStage .selected v input) = .next (s.atStage .packed v input) := by
  rw [packBody_eq (State.atStage_ver ..) h.load_inp]
  simp only [State.atStage, h.len_eq_ofNat, gridIn, Phase.hasData, Phase.hasCodewords]
  rfl

theorem ilvBody_atStage (s : State) (v : Version) (input : List Byte) :
    ilvBody (s.atStage .packed v input) = .next (s.atStage .coded v input) := by
  rw [ilvBody_eq (State.atStage_ver s .packed v input) (load_dataOf v input)]
  simp only [State.atStage, gridIn, Phase.hasData, Phase.hasCodewords]
  rfl

theorem mfuncBody_atStage (s : State) (v : Version) (input : List Byte) :
    mfuncBody (s.atStage .coded v input) = .next (s.atStage .func v input) := by
  rw [mfuncBody_eq (State.atStage_ver ..)]
  simp only [State.atStage, gridIn, funcGridOf, Phase.hasData, Phase.hasCodewords]

theorem mfmtBody_atStage (s : State) (v : Version) (input : List Byte) :
    mfmtBody (s.atStage .func v input) = .next (s.atStage .fmt v input) := by
  have hsquare : Grid.isSquare (s.atStage .func v input).grid v.size = true := by
    rw [State.atStage_grid, gridIn, isSquare_funcGridOf]
  rw [mfmtBody_eq (State.atStage_ver ..) hsquare]
  simp only [State.atStage, gridIn, fmtGridOf, Phase.hasData, Phase.hasCodewords]

theorem mdataBody_atStage (s : State) (v : Version) (input : List Byte) :
    mdataBody (s.atStage .fmt v input) = .next (s.atStage .done v input) := by
  have hsquare : Grid.isSquare (s.atStage .fmt v input).grid v.size = true := by
    rw [State.atStage_grid, gridIn, isSquare_fmtGridOf]
  rw [mdataBody_eq (State.atStage_ver s .fmt v input) (load_codewordsOf v input) hsquare]
  simp only [State.atStage, gridIn, symbolOf, Phase.hasData, Phase.hasCodewords]

theorem stagesBody_atStage (h : CallInv s input) (v : Version) :
    stagesBody (s.atStage .selected v input) = .next (s.atStage .done v input) := by
  simp only [stagesBody, packBody_atStage h, ilvBody_atStage, mfuncBody_atStage, mfmtBody_atStage, mdataBody_atStage,
    andThen_of_next]

/-! ### The invariant in the phases without a version -/

/-- In a phase without a version, the buffers and the grid are empty, and only IN, LEN and OVF say what the call is. -/
theorem CallInv.of_no_version (hp : s.phase.hasVersion = false) (hver : s.ver = none)
    (hempty : s.dcw = [] ∧ s.cw = [] ∧ s.grid = []) (hlen : s.len.toNat = input.length)
    (hinp : s.inp = Memory.ofBytes input) (hovf : s.ovf = true → input.length = 255)
    (herr : s.phase = .error → s.ovf = true ∨ selectVersion input.length = none) : CallInv s input where
  len_eq := hlen
  inp_eq := hinp
  ovf_full := hovf
  ver_eq := by simp [hp, hver]
  fits h := by simp [hp] at h
  error_only := herr
  stage v hv := by simp [hver] at hv
  empty _ := hempty

/-- Without a version, nothing is left of a call but its input. -/
theorem CallInv.no_version (h : CallInv s input) (hp : s.phase.hasVersion = false) :
    s.ver = none ∧ s.dcw = [] ∧ s.cw = [] ∧ s.grid = [] := by
  have hver : s.ver = none := by simp [h.ver_eq, hp]
  exact ⟨hver, h.empty hver⟩

/-- A fresh call has the empty input (R141). -/
theorem callInv_clearCall (s : State) : CallInv s.clearCall [] :=
  .of_no_version rfl rfl ⟨rfl, rfl, rfl⟩ rfl rfl nofun nofun

/-- A failed selection leaves a state of the same call (R85). -/
theorem CallInv.failCapacity (h : CallInv s input) (hp : s.phase = .load)
    (hfail : s.ovf = true ∨ selectVersion input.length = none) : CallInv s.failCapacity input :=
  .of_no_version rfl rfl (h.no_version (by rw [hp]; rfl)).2 h.len_eq h.inp_eq h.ovf_full fun _ => hfail

/-- PUSHB extends the input by the byte, or drops it at 255 bytes (R142). -/
theorem CallInv.pushbBody (h : CallInv s input) (hp : s.phase = .load) (a : Byte) :
    ∃ input', CallInv (pushbBody a s) input' := by
  have hnv : s.phase.hasVersion = false := by rw [hp]; rfl
  obtain ⟨hver, hempty⟩ := h.no_version hnv
  obtain ⟨hfull, ht⟩ | ⟨hroom, ht⟩ := pushbBody_cases a s
  · have hlen : input.length = 255 := by rw [← h.len_eq, hfull]; rfl
    exact ⟨input, ht ▸ .of_no_version hnv hver hempty h.len_eq h.inp_eq (fun _ => hlen) fun _ => .inl rfl⟩
  · have hlt : s.len.toNat < 255 := by
      have : s.len.toNat ≠ 255 := fun he => hroom (BitVec.eq_of_toNat_eq he)
      omega
    have hlen : (s.len + 1).toNat = (input ++ [a]).length := by
      rw [List.length_append, List.length_singleton, ← h.len_eq]
      bv_omega
    have hinp : Memory.write s.inp s.len.toNat a = Memory.ofBytes (input ++ [a]) := by
      rw [h.inp_eq, h.len_eq, Memory.write_ofBytes]
    have hovf : s.ovf = true → (input ++ [a]).length = 255 := fun ho => by
      have := h.ovf_full ho
      have := h.len_eq
      omega
    exact ⟨input ++ [a], ht ▸ .of_no_version hnv hver hempty hlen hinp hovf fun he => by simp [hp] at he⟩

/-- The per-call state alone decides what call a state belongs to. -/
theorem CallInv.of_frame (h : CallInv s input) (flt : FaultCode) (finfo res : Word) (rsp : Option Word)
    (host : List HostAction) :
    CallInv { s with flt := flt, finfo := finfo, res := res, rsp := rsp, host := host } input where
  len_eq := h.len_eq
  inp_eq := h.inp_eq
  ovf_full := h.ovf_full
  ver_eq := h.ver_eq
  fits := h.fits
  error_only := h.error_only
  stage v hv := by
    obtain ⟨hdcw, hcw, hgrid⟩ := h.stage v hv
    exact ⟨hdcw, hcw, hgrid⟩
  empty := h.empty

end Sys2Proof.Machine
end

/-! ### Every step answers, and keeps the invariant -/

section
namespace Sys2Proof.Machine

variable {s t : State} {input : List Byte}

/-- The outcome is a next state that meets the invariant. -/
def AnswersInv (o : Host.Outcome State Fault Refusal) : Prop :=
  ∃ t, o = .next t ∧ t.Inv

theorem AnswersInv.next (h : t.Inv) : AnswersInv (.next t) :=
  ⟨t, rfl, h⟩

/-- RES, the response and the host's list are not part of the invariant. -/
theorem State.Inv.of_frame (h : s.Inv) (res : Word) (rsp : Option Word) (host : List HostAction) :
    State.Inv { s with res := res, rsp := rsp, host := host } := by
  obtain ⟨⟨input, hcall⟩, hrec⟩ := h
  exact ⟨⟨input, hcall.of_frame ..⟩, hrec⟩

theorem RecordInv.of_sameRecords (h : RecordInv s) (hrec : sameRecords s t) : RecordInv t := by
  obtain ⟨-, hflt, hfinfo⟩ := hrec
  rwa [RecordInv, hflt, hfinfo]

theorem State.Inv.writeRes (h : s.Inv) (w : Word) : (s.writeRes w).Inv :=
  h.of_frame ..

/-- A fault that is recorded with its cause keeps the invariant, whether it is the first one or not (R166, R169). -/
theorem State.Inv.raise (h : s.Inv) {code : FaultCode} {w : Word}
    (hcause : RecordInv { s with flt := code, finfo := w }) : (s.raise code w).Inv := by
  by_cases hflt : s.flt = .none
  · obtain ⟨⟨input, hcall⟩, -⟩ := h
    rw [State.raise_first hflt]
    exact ⟨⟨input, hcall.of_frame ..⟩, hcause⟩
  · rwa [State.raise_later hflt]

/-! #### The shared operations -/

theorem guarded_answersInv {i : Instr} {body : State → Host.Outcome State Fault Refusal} (h : s.Inv)
    (hbody : legal i s.phase = true → AnswersInv (body s)) : AnswersInv (guarded i s body) := by
  cases hl : legal i s.phase with
  | true => rw [guarded_legal hl]; exact hbody hl
  | false => rw [guarded_illegal hl]; exact .next (h.raise ⟨i, s.phase, rfl, hl⟩)

theorem checkIndex_answersInv {i : Instr} {p : Prop} [Decidable p] {k : Host.Outcome State Fault Refusal} (h : s.Inv)
    (hin : p → AnswersInv k) (hout : ¬p → indexRangeWord (encode i)) : AnswersInv (checkIndex i s p k) := by
  by_cases hp : p
  · rw [checkIndex_inside hp]; exact hin hp
  · rw [checkIndex_outside hp]; exact .next (h.raise (hout hp))

/-- A byte inside a buffer of given bytes can be read. -/
theorem readByte_ofBytes_answersInv (h : s.Inv) (sp : Space) {bs : List Byte} {a : Byte} (ha : indexOf a < bs.length) :
    AnswersInv (readByte sp (Memory.ofBytes bs) a s) := by
  rw [readByte, Memory.read_ofBytes, List.getElem?_eq_getElem ha]
  exact .next (h.writeRes _)

/-! #### The stages -/

/-- With a version selected, the state is the one its stages leave. -/
theorem State.Inv.exists_atStage_eq (h : s.Inv) (hp : s.phase.hasVersion = true) :
    ∃ v input, CallInv s input ∧ s.ovf = false ∧ selectVersion input.length = some v ∧
      s.atStage s.phase v input = s := by
  obtain ⟨⟨input, hcall⟩, -⟩ := h
  obtain ⟨v, hrest⟩ := hcall.exists_atStage_eq hp
  exact ⟨v, input, hcall, hrest⟩

/-- A body that leads from what one stage leaves to what the next one leaves answers and keeps the invariant. -/
theorem stage_answersInv {body : State → Host.Outcome State Fault Refusal} {p q : Phase} (h : s.Inv)
    (hphase : s.phase = p) (hp : p.hasVersion = true) (hq : q.hasVersion = true)
    (hbody : ∀ v input, CallInv s input → body (s.atStage p v input) = .next (s.atStage q v input)) :
    AnswersInv (body s) := by
  subst hphase
  obtain ⟨v, input, hcall, hovf, hsel, hs⟩ := h.exists_atStage_eq hp
  have ht := hbody v input hcall
  rw [hs] at ht
  exact ⟨_, ht, ⟨input, hcall.atStage hq hovf hsel⟩, h.2⟩

/-- In LOAD the buffers are empty, so selecting a version gives the state after VSEL. -/
theorem CallInv.select_eq_atStage (h : CallInv s input) (hp : s.phase = .load) (v : Version) :
    { s with ver := some v, phase := .selected } = s.atStage .selected v input := by
  obtain ⟨-, hdcw, hcw, hgrid⟩ := h.no_version (by rw [hp]; rfl)
  rw [State.atStage, hdcw, hcw, hgrid]
  rfl

/-- In LOAD the selector leaves the state after VSEL, or that of a failed call (R84, R85). -/
theorem CallInv.vselBody_cases (h : CallInv s input) (hp : s.phase = .load) :
    (∃ v, s.ovf = false ∧ selectVersion input.length = some v ∧ vselBody s = s.atStage .selected v input) ∨
      (CallInv s.failCapacity input ∧ vselBody s = s.failCapacity) := by
  obtain ⟨v, hovf, hsel, hs⟩ | ⟨hfail, hs⟩ := Machine.vselBody_cases s
  · rw [h.len_eq] at hsel
    exact .inl ⟨v, hovf, hsel, hs.trans (h.select_eq_atStage hp v)⟩
  · rw [h.len_eq] at hfail
    exact .inr ⟨h.failCapacity hp hfail, hs⟩

theorem vselBody_inv (h : s.Inv) (hp : s.phase = .load) : (vselBody s).Inv := by
  obtain ⟨⟨input, hcall⟩, hrec⟩ := h
  obtain ⟨v, hovf, hsel, hs⟩ | ⟨hfail, hs⟩ := hcall.vselBody_cases hp
  · exact hs ▸ ⟨⟨input, hcall.atStage rfl hovf hsel⟩, hrec⟩
  · exact hs ▸ ⟨⟨input, hfail⟩, hrec⟩

theorem genBody_answersInv (h : s.Inv) (hp : s.phase = .load) : AnswersInv (genBody s) := by
  obtain ⟨⟨input, hcall⟩, hrec⟩ := h
  obtain ⟨v, hovf, hsel, hs⟩ | ⟨hfail, hs⟩ := hcall.vselBody_cases hp
  · rw [genBody, hs, if_neg nofun, stagesBody_atStage hcall]
    exact .next ⟨⟨input, hcall.atStage rfl hovf hsel⟩, hrec⟩
  · rw [genBody, hs, if_pos (State.failCapacity_phase s)]
    exact .next ⟨⟨input, hfail⟩, hrec⟩

/-! #### Readout -/

theorem legal_rddcw (a : Byte) (p : Phase) : legal (.rddcw a) p = p.hasData := by
  cases p <;> rfl

theorem legal_rdcw (a : Byte) (p : Phase) : legal (.rdcw a) p = p.hasCodewords := by
  cases p <;> rfl

theorem Phase.hasVersion_of_hasData {p : Phase} (h : p.hasData = true) : p.hasVersion = true := by
  cases p with
  | load | error | selected => cases h
  | packed | coded | func | fmt | done => rfl

theorem Phase.hasVersion_of_hasCodewords {p : Phase} (h : p.hasCodewords = true) : p.hasVersion = true := by
  cases p with
  | load | error | selected | packed => cases h
  | coded | func | fmt | done => rfl

/-- DCW holds the data codewords in every phase in which RDDCW is legal (R17, R153). -/
theorem ruleOf_rddcw_answersInv (h : s.Inv) (a : Byte) (hp : s.phase.hasData = true) :
    AnswersInv (ruleOf (.rddcw a) s) := by
  obtain ⟨v, input, -, -, -, hs⟩ := h.exists_atStage_eq (Phase.hasVersion_of_hasData hp)
  have hver : s.ver = some v := by rw [← hs, State.atStage_ver]
  have hdcw : s.dcw = Memory.ofBytes (dataOf v input) := by rw [← hs, State.atStage_dcw, if_pos hp]
  rw [ruleOf, withVersion_some hver, hdcw]
  refine checkIndex_answersInv h (fun hin => ?_) fun hout => ⟨v, .inl ⟨a, rfl, Nat.not_lt.mp hout⟩⟩
  exact readByte_ofBytes_answersInv h _ (Nat.lt_of_lt_of_eq hin (length_dataOf v input).symm)

/-- CW holds the codewords in every phase in which RDCW is legal (R18, R154). -/
theorem ruleOf_rdcw_answersInv (h : s.Inv) (a : Byte) (hp : s.phase.hasCodewords = true) :
    AnswersInv (ruleOf (.rdcw a) s) := by
  obtain ⟨v, input, -, -, -, hs⟩ := h.exists_atStage_eq (Phase.hasVersion_of_hasCodewords hp)
  have hver : s.ver = some v := by rw [← hs, State.atStage_ver]
  have hcw : s.cw = Memory.ofBytes (codewordsOf v input) := by rw [← hs, State.atStage_cw, if_pos hp]
  rw [ruleOf, withVersion_some hver, hcw]
  refine checkIndex_answersInv h (fun hin => ?_) fun hout => ⟨v, .inr (.inl ⟨a, rfl, Nat.not_lt.mp hout⟩)⟩
  exact readByte_ofBytes_answersInv h _ (Nat.lt_of_lt_of_eq hin (length_codewordsOf v input).symm)

/-- The grid is complete in the phase in which RDMOD is legal (R19, R155). -/
theorem ruleOf_rdmod_answersInv (h : s.Inv) (a b : Byte) (hp : s.phase = .done) :
    AnswersInv (ruleOf (.rdmod a b) s) := by
  obtain ⟨v, input, -, -, -, hs⟩ := h.exists_atStage_eq (by rw [hp]; rfl)
  have hver : s.ver = some v := by rw [← hs, State.atStage_ver]
  have hgrid : Grid.isSquare s.grid v.size = true := by
    rw [← hs, State.atStage_grid, hp, gridIn, isSquare_symbolOf]
  rw [ruleOf, withVersion_some hver, withGrid_square hgrid]
  refine checkIndex_answersInv h (fun _ => .next (h.writeRes _)) fun hout => ⟨v, .inr (.inr ⟨a, b, rfl, ?_⟩)⟩
  simp only [indexOf] at hout
  omega

/-! #### Commands and steps -/

/-- The rule of a command in a phase where it is legal answers and keeps the invariant. -/
theorem ruleOf_answersInv {i : Instr} (h : s.Inv) (hl : legal i s.phase = true) : AnswersInv (ruleOf i s) := by
  cases i with
  | nop => exact .next h
  | clear => exact .next ⟨⟨[], callInv_clearCall s⟩, h.2⟩
  | pushb a =>
    obtain ⟨⟨input, hcall⟩, hrec⟩ := h
    exact .next ⟨hcall.pushbBody (beq_iff_eq.mp hl) a, hrec.of_sameRecords (sameRecords_pushbBody a s)⟩
  | gfmul | rdstat | rdflt => exact .next (h.writeRes _)
  | vsel => exact .next (vselBody_inv h (beq_iff_eq.mp hl))
  | gen => exact genBody_answersInv h (beq_iff_eq.mp hl)
  | pack => exact stage_answersInv h (beq_iff_eq.mp hl) rfl rfl fun v _ hcall => packBody_atStage hcall v
  | ilv => exact stage_answersInv h (beq_iff_eq.mp hl) rfl rfl fun v input _ => ilvBody_atStage s v input
  | mfunc => exact stage_answersInv h (beq_iff_eq.mp hl) rfl rfl fun v input _ => mfuncBody_atStage s v input
  | mfmt => exact stage_answersInv h (beq_iff_eq.mp hl) rfl rfl fun v input _ => mfmtBody_atStage s v input
  | mdata => exact stage_answersInv h (beq_iff_eq.mp hl) rfl rfl fun v input _ => mdataBody_atStage s v input
  | rddcw a => exact ruleOf_rddcw_answersInv h a (legal_rddcw a s.phase ▸ hl)
  | rdcw a => exact ruleOf_rdcw_answersInv h a (legal_rdcw a s.phase ▸ hl)
  | rdmod a b => exact ruleOf_rdmod_answersInv h a b (beq_iff_eq.mp hl)

theorem exec_answersInv (h : s.Inv) (i : Instr) : AnswersInv (exec i s) := by
  rw [exec_eq_guarded_ruleOf]
  exact guarded_answersInv h (ruleOf_answersInv h)

theorem runCommand_answersInv (h : s.Inv) (w : Word) : AnswersInv (runCommand exec w s) := by
  cases hdec : decode w with
  | ok i =>
    obtain ⟨t, ht, hinv⟩ := exec_answersInv h i
    rw [runCommand_ok hdec, ht, andThen_of_next]
    exact .next (hinv.of_frame ..)
  | error e =>
    have hinv := h.raise (code := .illegalCommand) (w := w) ⟨e, hdec⟩
    rw [runCommand_error hdec]
    exact .next (hinv.of_frame ..)

theorem reset_inv : State.reset.Inv :=
  ⟨⟨[], callInv_clearCall State.reset⟩, rfl⟩

theorem step_answersInv (h : s.Inv) : AnswersInv (step s) := by
  cases hhost : s.host with
  | nil => exact step_idle hhost ▸ .next h
  | cons action rest =>
    cases action with
    | command w => exact step_command hhost ▸ runCommand_answersInv (h.of_frame ..) w
    | reset => exact step_reset hhost ▸ .next (reset_inv.of_frame ..)

/-- Settles O12: the reset state is a fresh call with no fault on record. -/
theorem resetMeetsInvariant : Obligations.ResetMeetsInvariant :=
  reset_inv

/-- Settles O13, from the case analysis of a step that also shows that it answers. -/
theorem stepKeepsInvariant : Obligations.StepKeepsInvariant := by
  intro s t hinv hstep
  obtain ⟨u, hu, huinv⟩ := step_answersInv hinv
  rw [hstep, Host.Outcome.next.injEq] at hu
  exact hu ▸ huinv

/-- Settles O14: what a legal command reads is there in every state that meets the invariant. -/
theorem stepNeverStops : Obligations.StepNeverStops := by
  intro s hinv
  obtain ⟨t, ht, -⟩ := step_answersInv hinv
  exact ⟨t, ht⟩

end Sys2Proof.Machine
end

/-! ### Which buffers a command writes, and their canonical form -/

section
namespace Sys2Proof.Machine

variable {s t : State}

/-! #### GEN as a run of stage commands -/

/-- The six commands GEN runs the rules of (R150). -/
def isStage : Instr → Bool
  | .vsel | .pack | .ilv | .mfunc | .mfmt | .mdata => true
  | _ => false

/-- What every stage command's rule keeps, GEN keeps. -/
theorem genBody_induct {P : State → Prop} (h : genBody s = .next t) (hs : P s)
    (hstage : ∀ i u u', isStage i = true → ruleOf i u = .next u' → P u → P u') : P t := by
  have hvsel : P (vselBody s) := hstage .vsel s _ rfl rfl hs
  obtain ⟨-, rfl⟩ | ⟨-, s2, s3, s4, s5, h2, h3, h4, h5, h6⟩ := genBody_next h
  · exact hvsel
  · have hpack : P s2 := hstage .pack _ _ rfl h2 hvsel
    have hilv : P s3 := hstage .ilv _ _ rfl h3 hpack
    have hmfunc : P s4 := hstage .mfunc _ _ rfl h4 hilv
    have hmfmt : P s5 := hstage .mfmt _ _ rfl h5 hmfunc
    exact hstage .mdata _ _ rfl h6 hmfmt

/-! #### The frame of a rule -/

/-- The input of the call is as it was: IN, LEN and OVF (R15, R27). -/
def sameInput (s t : State) : Prop :=
  t.inp = s.inp ∧ t.len = s.len ∧ t.ovf = s.ovf

theorem sameInput.refl (s : State) : sameInput s s :=
  ⟨rfl, rfl, rfl⟩

theorem sameInput.trans {u : State} (h : sameInput s t) (h' : sameInput t u) : sameInput s u := by
  obtain ⟨hinp, hlen, hovf⟩ := h
  obtain ⟨hinp', hlen', hovf'⟩ := h'
  exact ⟨hinp'.trans hinp, hlen'.trans hlen, hovf'.trans hovf⟩

/-- What the rule of each single command leaves as it was; GEN runs several of them. -/
theorem ruleOf_frame {i : Instr} (hgen : i ≠ .gen) (h : ruleOf i s = .next t) :
    (i ≠ .clear → (∀ a, i ≠ .pushb a) → sameInput s t) ∧
    (i ≠ .clear → i ≠ .pack → t.dcw = s.dcw) ∧
    (i ≠ .clear → i ≠ .ilv → t.cw = s.cw) ∧
    (i ≠ .clear → i ≠ .mfunc → i ≠ .mfmt → i ≠ .mdata → t.grid = s.grid) ∧
    (i ≠ .clear → i ≠ .vsel → t.ver = s.ver) := by
  cases i with
  | nop => cases h; simp [sameInput]
  | clear => simp
  | pushb a =>
    cases h
    obtain ⟨-, hs⟩ | ⟨-, hs⟩ := pushbBody_cases a s <;> simp [hs]
  | vsel =>
    cases h
    obtain ⟨v, -, -, hs⟩ | ⟨-, hs⟩ := vselBody_cases s <;> simp [hs, sameInput]
  | pack =>
    obtain ⟨v, input, -, -, rfl⟩ := packBody_next h
    simp [sameInput]
  | ilv =>
    obtain ⟨v, data, -, -, rfl⟩ := ilvBody_next h
    simp [sameInput]
  | mfunc =>
    obtain ⟨v, -, rfl⟩ := mfuncBody_next h
    simp [sameInput]
  | mfmt =>
    obtain ⟨v, -, -, rfl⟩ := mfmtBody_next h
    simp [sameInput]
  | mdata =>
    obtain ⟨v, cws, -, -, -, rfl⟩ := mdataBody_next h
    simp [sameInput]
  | gen => exact absurd rfl hgen
  | gfmul | rdstat | rdflt | rddcw | rdcw | rdmod =>
    obtain ⟨w, rfl⟩ | rfl := ruleOf_next_of_producesResult rfl h <;> simp [sameInput]

theorem ruleOf_stage_sameInput {i : Instr} (hi : isStage i = true) (h : ruleOf i s = .next t) : sameInput s t := by
  have hgen : i ≠ .gen := by rintro rfl; cases hi
  have hclear : i ≠ .clear := by rintro rfl; cases hi
  have hpushb : ∀ a, i ≠ .pushb a := by rintro a rfl; cases hi
  exact (ruleOf_frame hgen h).1 hclear hpushb

/-- GEN reads the input of the call and leaves it (R150). -/
theorem genBody_sameInput (h : genBody s = .next t) : sameInput s t :=
  genBody_induct h (.refl s) fun _ _ _ hi hrule hsame => hsame.trans (ruleOf_stage_sameInput hi hrule)

/-- Settles O20: an out-of-phase command writes the fault record only, a single command has its frame, and GEN leaves
the input because its stages do. -/
theorem eachBufferHasItsWriters : Obligations.EachBufferHasItsWriters := by
  intro i s t h
  obtain ⟨-, h⟩ | ⟨-, rfl⟩ := exec_next h
  · by_cases hgen : i = .gen
    · subst hgen
      exact ⟨fun _ _ => genBody_sameInput h, by simp⟩
    · obtain ⟨hinput, hdcw, hcw, hgrid, hver⟩ := ruleOf_frame hgen h
      exact ⟨hinput, fun hclear _ => hdcw hclear, fun hclear _ => hcw hclear, fun hclear _ => hgrid hclear,
        fun hclear _ => hver hclear⟩
  · simp

/-! #### The canonical form of the buffers -/

/-- The buffers IN, DCW and CW are in the model's canonical form (log entry 5). -/
def State.BuffersWf (s : State) : Prop :=
  Memory.wf s.inp ∧ Memory.wf s.dcw ∧ Memory.wf s.cw

/-- The canonical form speaks of the three buffers and of nothing else. -/
theorem State.BuffersWf.of_eq (hs : s.BuffersWf) (hinp : t.inp = s.inp) (hdcw : t.dcw = s.dcw) (hcw : t.cw = s.cw) :
    t.BuffersWf := by
  rwa [State.BuffersWf, hinp, hdcw, hcw]

theorem State.BuffersWf.raise (hs : s.BuffersWf) (code : FaultCode) (w : Word) : (s.raise code w).BuffersWf :=
  hs.of_eq (State.raise_inp ..) (State.raise_dcw ..) (State.raise_cw ..)

theorem State.BuffersWf.pushbBody (hs : s.BuffersWf) (a : Byte) : (pushbBody a s).BuffersWf := by
  obtain ⟨hinp, hdcw, hcw⟩ := hs
  obtain ⟨-, h⟩ | ⟨-, h⟩ := pushbBody_cases a s <;> rw [h]
  · exact ⟨hinp, hdcw, hcw⟩
  · exact ⟨Memory.write_wf hinp _ _, hdcw, hcw⟩

/-- A single command writes a buffer by writes that keep the form, or leaves it. -/
theorem State.BuffersWf.ruleOf {i : Instr} (hs : s.BuffersWf) (hgen : i ≠ .gen) (h : ruleOf i s = .next t) :
    t.BuffersWf := by
  cases i with
  | clear => cases h; exact ⟨.nil, .nil, .nil⟩
  | pushb a => cases h; exact hs.pushbBody a
  | pack =>
    obtain ⟨hinp, hdcw, hcw⟩ := hs
    obtain ⟨v, input, -, -, rfl⟩ := packBody_next h
    exact ⟨hinp, Memory.store_wf hdcw _ _, hcw⟩
  | ilv =>
    obtain ⟨hinp, hdcw, hcw⟩ := hs
    obtain ⟨v, data, -, -, rfl⟩ := ilvBody_next h
    exact ⟨hinp, hdcw, Memory.store_wf hcw _ _⟩
  | gen => exact absurd rfl hgen
  | nop | vsel | mfunc | mfmt | mdata | gfmul | rdstat | rdflt | rddcw | rdcw | rdmod =>
    obtain ⟨hinput, hdcw, hcw, -, -⟩ := ruleOf_frame hgen h
    obtain ⟨hinp, -, -⟩ := hinput nofun nofun
    exact hs.of_eq hinp (hdcw nofun nofun) (hcw nofun nofun)

theorem State.BuffersWf.genBody (hs : s.BuffersWf) (h : genBody s = .next t) : t.BuffersWf :=
  genBody_induct h hs fun _ _ _ hi hrule hu => hu.ruleOf (by rintro rfl; cases hi) hrule

theorem State.BuffersWf.exec {i : Instr} (hs : s.BuffersWf) (h : exec i s = .next t) : t.BuffersWf := by
  obtain ⟨-, h⟩ | ⟨-, rfl⟩ := exec_next h
  · by_cases hgen : i = .gen
    · subst hgen
      exact hs.genBody h
    · exact hs.ruleOf hgen h
  · exact hs.raise _ _

theorem State.BuffersWf.runCommand {w : Word} (hs : s.BuffersWf) (h : runCommand Machine.exec w s = .next t) :
    t.BuffersWf := by
  cases hdec : decode w with
  | ok i =>
    rw [runCommand_ok hdec] at h
    obtain ⟨u, hu, h⟩ := andThen_next h
    cases h
    exact (hs.exec hu).of_eq rfl rfl rfl
  | error e =>
    rw [runCommand_error hdec] at h
    cases h
    exact (hs.raise _ _).of_eq rfl rfl rfl

/-- Settles O21: an idle step changes nothing, a command's writes keep the form, and reset empties the buffers. -/
theorem buffersStayCanonical : Obligations.BuffersStayCanonical := by
  intro s t hs h
  cases hhost : s.host with
  | nil => rw [step_idle hhost] at h; cases h; exact hs
  | cons action rest =>
    cases action with
    | command w =>
      rw [step_command hhost] at h
      have htaken : (s.withHost rest).BuffersWf := hs
      exact htaken.runCommand h
    | reset => rw [step_reset hhost] at h; cases h; exact reset_buffers_wf

end Sys2Proof.Machine
end

/-! ### A command word and its four fields -/

section
namespace Sys2Proof

theorem fields_word (f : Fields) : fields f.word = f := by
  have hop : f.word.extractLsb' 24 8 = f.op := BitVec.extractLsb'_append_eq_left
  have ha : f.word.extractLsb' 16 8 = f.a :=
    (BitVec.extractLsb'_append_eq_of_add_le (by decide)).trans BitVec.extractLsb'_append_eq_left
  have hb : f.word.extractLsb' 8 8 = f.b :=
    (BitVec.extractLsb'_append_eq_of_add_le (by decide)).trans <|
      (BitVec.extractLsb'_append_eq_of_add_le (by decide)).trans BitVec.extractLsb'_append_eq_left
  have hz : f.word.extractLsb' 0 8 = f.z :=
    (BitVec.extractLsb'_append_eq_of_add_le (by decide)).trans <|
      (BitVec.extractLsb'_append_eq_of_add_le (by decide)).trans BitVec.extractLsb'_append_eq_right
  rw [fields, hop, ha, hb, hz]

theorem word_fields (w : Word) : (fields w).word = w := by
  have hbz : w.extractLsb' 8 8 ++ w.extractLsb' 0 8 = w.extractLsb' 0 16 :=
    BitVec.extractLsb'_append_extractLsb'_eq_extractLsb' rfl
  have habz : w.extractLsb' 16 8 ++ w.extractLsb' 0 16 = w.extractLsb' 0 24 :=
    BitVec.extractLsb'_append_extractLsb'_eq_extractLsb' rfl
  have hall : w.extractLsb' 24 8 ++ w.extractLsb' 0 24 = w :=
    (BitVec.extractLsb'_append_extractLsb'_eq_extractLsb' rfl).trans BitVec.extractLsb'_eq_self
  simp only [fields, Fields.word, hbz, habz, hall]

/-- A word is the same thing as its four fields (R45). -/
theorem fields_eq_iff {w : Word} {f : Fields} : fields w = f ↔ w = f.word :=
  ⟨fun h => h ▸ (word_fields w).symm, fun h => h ▸ fields_word f⟩

theorem fields_inj {v w : Word} : fields v = fields w ↔ v = w := by
  rw [fields_eq_iff, word_fields]

theorem fields_and (v w : Word) :
    fields (v &&& w) =
      ⟨(fields v).op &&& (fields w).op, (fields v).a &&& (fields w).a, (fields v).b &&& (fields w).b,
        (fields v).z &&& (fields w).z⟩ := by
  simp [fields, BitVec.extractLsb'_and]

/-! The fields in arithmetic on the word's number. -/

theorem toNat_fields_op (w : Word) : (fields w).op.toNat = w.toNat / 2 ^ 24 := by
  simp only [fields, BitVec.extractLsb'_toNat, Nat.shiftRight_eq_div_pow]
  omega

theorem toNat_fields_a (w : Word) : (fields w).a.toNat = w.toNat / 2 ^ 16 % 256 := by
  simp [fields, Nat.shiftRight_eq_div_pow]

theorem toNat_fields_b (w : Word) : (fields w).b.toNat = w.toNat / 2 ^ 8 % 256 := by
  simp [fields, Nat.shiftRight_eq_div_pow]

theorem toNat_fields_z (w : Word) : (fields w).z.toNat = w.toNat % 256 := by
  simp [fields]

/-! ### The fields of a command's word -/

theorem Fields.wellFormed_iff {f : Fields} :
    f.wellFormed = true ↔ opcodeReserved f.op = false ∧ f.unusedZero (formatOfOpcode f.op) = true := by
  simp [Fields.wellFormed]

theorem Instr.wellFormed_fields (i : Instr) : i.fields.wellFormed = true := by
  cases i <;> rfl

theorem Instr.opcodeReserved_opcode (i : Instr) : opcodeReserved i.opcode = false := by
  cases i <;> rfl

theorem Instr.formatOfOpcode_opcode (i : Instr) : formatOfOpcode i.opcode = i.format := by
  cases i <;> rfl

theorem Instr.fieldA_eq_zero {i : Instr} (h : i.format = .n) : i.fieldA = 0 := by
  cases i with
  | nop | clear | vsel | pack | ilv | mfunc | mfmt | mdata | gen | rdstat | rdflt => rfl
  | pushb | gfmul | rddcw | rdcw | rdmod => cases h

theorem Instr.fieldB_eq_zero {i : Instr} (h : i.format ≠ .ab) : i.fieldB = 0 := by
  cases i with
  | gfmul | rdmod => exact absurd rfl h
  | nop | clear | pushb | vsel | pack | ilv | mfunc | mfmt | mdata | gen | rdstat | rdflt | rddcw | rdcw => rfl

/-- The fields of a command's word by format: the opcode, zero where the format has no operand, the operands where it has
(R46, R47). -/
theorem Instr.eq_fields_iff {f : Fields} {i : Instr} :
    f = i.fields ↔ f.op = i.opcode ∧ (i.format ≠ .n → f.a = i.fieldA) ∧ (i.format = .ab → f.b = i.fieldB) ∧
      f.unusedZero i.format = true := by
  have heq : f = i.fields ↔ f.op = i.opcode ∧ f.a = i.fieldA ∧ f.b = i.fieldB ∧ f.z = 0 := by
    cases f
    simp [Instr.fields]
  rw [heq]
  cases hfmt : i.format with
  | n => simp [Fields.unusedZero, i.fieldA_eq_zero hfmt, i.fieldB_eq_zero (by simp [hfmt]), and_assoc]
  | a => simp [Fields.unusedZero, i.fieldB_eq_zero (by simp [hfmt])]
  | ab => simp [Fields.unusedZero]

/-! ### What the decoder's answer says of the fields -/

/-- What an answer of the decoder says of the fields it was given (R49 steps 1 and 2). -/
def Explains (f : Fields) : Except Reject Instr → Prop
  | .ok i => f = i.fields
  | .error .reservedOpcode => opcodeReserved f.op = true
  | .error .reservedField => opcodeReserved f.op = false ∧ f.unusedZero (formatOfOpcode f.op) = false

/-- The answer of one row of the opcode map: the row's command, unless a field that its format does not use is not zero. -/
theorem explains_row {f : Fields} {i : Instr} (hop : f.op = i.opcode) (ha : i.format ≠ .n → f.a = i.fieldA)
    (hb : i.format = .ab → f.b = i.fieldB) :
    Explains f (if f.unusedZero i.format = true then .ok i else .error .reservedField) := by
  split
  · next hz => exact Instr.eq_fields_iff.mpr ⟨hop, ha, hb, hz⟩
  · next hz =>
    rw [Bool.not_eq_true] at hz
    rw [Explains, hop, i.opcodeReserved_opcode, i.formatOfOpcode_opcode]
    exact ⟨rfl, hz⟩

theorem explains_decodeN {f : Fields} {i : Instr} (hop : f.op = i.opcode) (hfmt : i.format = .n) :
    Explains f (decodeN f i) := by
  have h := explains_row hop (absurd hfmt) (by simp [hfmt])
  simpa [hfmt, Fields.unusedZero, decodeN, and_assoc] using h

theorem explains_decodeA {f : Fields} {i : Byte → Instr} (hop : f.op = (i f.a).opcode) (hfmt : (i f.a).format = .a)
    (ha : f.a = (i f.a).fieldA) : Explains f (decodeA f i) := by
  have h := explains_row hop (fun _ => ha) (by simp [hfmt])
  simpa [hfmt, Fields.unusedZero, decodeA] using h

theorem explains_decodeAB {f : Fields} {i : Byte → Byte → Instr} (hop : f.op = (i f.a f.b).opcode)
    (hfmt : (i f.a f.b).format = .ab) (ha : f.a = (i f.a f.b).fieldA) (hb : f.b = (i f.a f.b).fieldB) :
    Explains f (decodeAB f i) := by
  have h := explains_row hop (fun _ => ha) (fun _ => hb)
  simpa [hfmt, Fields.unusedZero, decodeAB] using h

/-- Every answer of the decoder says why: sixteen rows by format, and the opcodes that no row has. -/
theorem explains_decodeFields (f : Fields) : Explains f (decodeFields f) := by
  unfold decodeFields
  split
  case h_1 h | h_2 h | h_5 h | h_6 h | h_7 h | h_8 h | h_9 h | h_10 h | h_11 h | h_12 h | h_13 h =>
    exact explains_decodeN (BitVec.eq_of_toNat_eq h) rfl
  case h_3 h | h_14 h | h_15 h => exact explains_decodeA (BitVec.eq_of_toNat_eq h) rfl rfl
  case h_4 h | h_16 h => exact explains_decodeAB (BitVec.eq_of_toNat_eq h) rfl rfl rfl
  case h_17 =>
    simp only [imp_false, Explains, opcodeReserved, Bool.or_eq_true, Bool.and_eq_true, decide_eq_true_eq] at *
    omega

/-! ### The decoder on words -/

theorem explains_decode (w : Word) : Explains (fields w) (decode w) :=
  explains_decodeFields (fields w)

theorem decode_encode (i : Instr) : decode (encode i) = .ok i := by
  rw [decode, encode, fields_word]
  cases i <;> rfl

theorem decode_eq_ok_iff {w : Word} {i : Instr} : decode w = .ok i ↔ fields w = i.fields := by
  constructor
  · intro h
    have hex := explains_decode w
    rwa [h] at hex
  · intro h
    rw [fields_eq_iff.mp h]
    exact decode_encode i

/-- Settles O1: a word is its four fields, and the decoder accepts the fields of exactly one command. -/
theorem decodeInvertsEncode : Obligations.DecodeInvertsEncode := by
  intro w i
  rw [decode_eq_ok_iff, fields_eq_iff, encode]

theorem decode_ok_wellFormed {w : Word} {i : Instr} (h : decode w = .ok i) : (fields w).wellFormed = true :=
  decode_eq_ok_iff.mp h ▸ i.wellFormed_fields

/-- Settles O6: what each of the decoder's three answers says of the fields excludes the other two. -/
theorem decoderAcceptsWellFormedWords : Obligations.DecoderAcceptsWellFormedWords := by
  intro w
  have hex := explains_decode w
  cases hdec : decode w with
  | ok i =>
    have hwf := decode_ok_wellFormed hdec
    simp [hwf, Fields.wellFormed_iff.mp hwf]
  | error e =>
    rw [hdec] at hex
    cases e with
    | reservedOpcode =>
      have hreserved : opcodeReserved (fields w).op = true := hex
      simp [Fields.wellFormed_iff, hreserved]
    | reservedField =>
      obtain ⟨hassigned, hnonzero⟩ := hex
      simp [Fields.wellFormed_iff, hassigned, hnonzero]

/-! ### The mask and match columns (R52) -/

theorem fields_and_mask (w : Word) (fmt : Format) :
    fields (w &&& fmt.mask) =
      ⟨(fields w).op, if fmt = .n then (fields w).a else 0, if fmt = .ab then 0 else (fields w).b, (fields w).z⟩ := by
  have hmask : fields fmt.mask = ⟨255, if fmt = .n then 255 else 0, if fmt = .ab then 0 else 255, 255⟩ := by
    cases fmt <;> rfl
  have hones (x : Byte) : x &&& 255#8 = x := BitVec.and_allOnes
  rw [fields_and, hmask]
  cases fmt <;> simp [hones]

theorem fields_matchWord (i : Instr) : fields i.matchWord = ⟨i.opcode, 0, 0, 0⟩ := by
  cases i <;> simp [fields, Instr.matchWord, Instr.opcode]

theorem and_mask_eq_matchWord_iff {w : Word} {i : Instr} :
    w &&& i.format.mask = i.matchWord ↔ (fields w).op = i.opcode ∧ (fields w).unusedZero i.format = true := by
  rw [← fields_inj, fields_and_mask, fields_matchWord]
  cases i.format <;> simp [Fields.unusedZero, and_assoc]

/-- A word selects a command by its mask and match, and its operands are the fields its format uses (R46, R52). -/
theorem decode_eq_ok_iff_mask {w : Word} {i : Instr} :
    decode w = .ok i ↔ w &&& i.format.mask = i.matchWord ∧
      (i.format ≠ .n → (fields w).a = i.fieldA) ∧ (i.format = .ab → (fields w).b = i.fieldB) := by
  rw [decode_eq_ok_iff, Instr.eq_fields_iff, and_mask_eq_matchWord_iff]
  exact ⟨fun ⟨hop, ha, hb, hz⟩ => ⟨⟨hop, hz⟩, ha, hb⟩, fun ⟨⟨hop, hz⟩, ha, hb⟩ => ⟨hop, ha, hb, hz⟩⟩

/-! The three formats of a row, with the opcode apart from the command that has it. -/

theorem decode_eq_ok_iff_n {w : Word} (op : Byte) (i : Instr) (hfmt : i.format = .n) (hop : i.opcode = op) :
    decode w = .ok i ↔ w &&& Format.n.mask = op.setWidth 32 <<< 24 := by
  rw [decode_eq_ok_iff_mask, hfmt, Instr.matchWord, hop]
  simp

theorem decode_eq_ok_iff_a {w : Word} (op : Byte) (i : Instr) (hfmt : i.format = .a) (hop : i.opcode = op) :
    decode w = .ok i ↔ w &&& Format.a.mask = op.setWidth 32 <<< 24 ∧ i.fieldA = w.extractLsb' 16 8 := by
  rw [decode_eq_ok_iff_mask, hfmt, Instr.matchWord, hop, eq_comm (a := i.fieldA)]
  simp [fields]

theorem decode_eq_ok_iff_ab {w : Word} (op : Byte) (i : Instr) (hfmt : i.format = .ab) (hop : i.opcode = op) :
    decode w = .ok i ↔ w &&& Format.ab.mask = op.setWidth 32 <<< 24 ∧
      i.fieldA = w.extractLsb' 16 8 ∧ i.fieldB = w.extractLsb' 8 8 := by
  rw [decode_eq_ok_iff_mask, hfmt, Instr.matchWord, hop, eq_comm (a := i.fieldA), eq_comm (a := i.fieldB)]
  simp [fields]

/-- Settles O2, row by row from the rule of the row's format. -/
theorem maskAndMatchSelectRow : Obligations.MaskAndMatchSelectRow := by
  intro w
  exact ⟨decode_eq_ok_iff_n 0x00 .nop rfl rfl, decode_eq_ok_iff_n 0x01 .clear rfl rfl,
    fun a => decode_eq_ok_iff_a 0x02 (.pushb a) rfl rfl, fun a b => decode_eq_ok_iff_ab 0x03 (.gfmul a b) rfl rfl,
    decode_eq_ok_iff_n 0x04 .vsel rfl rfl, decode_eq_ok_iff_n 0x05 .pack rfl rfl,
    decode_eq_ok_iff_n 0x06 .ilv rfl rfl, decode_eq_ok_iff_n 0x07 .mfunc rfl rfl,
    decode_eq_ok_iff_n 0x08 .mfmt rfl rfl, decode_eq_ok_iff_n 0x09 .mdata rfl rfl,
    decode_eq_ok_iff_n 0x0A .gen rfl rfl, decode_eq_ok_iff_n 0x10 .rdstat rfl rfl,
    decode_eq_ok_iff_n 0x11 .rdflt rfl rfl, fun a => decode_eq_ok_iff_a 0x12 (.rddcw a) rfl rfl,
    fun a => decode_eq_ok_iff_a 0x13 (.rdcw a) rfl rfl, fun a b => decode_eq_ok_iff_ab 0x14 (.rdmod a b) rfl rfl⟩

/-! ### Operands in arithmetic -/

theorem toNat_fieldA_of_decode {w : Word} {i : Instr} (h : decode w = .ok i) :
    i.fieldA.toNat = w.toNat / 2 ^ 16 % 256 := by
  rw [← toNat_fields_a, decode_eq_ok_iff.mp h, Instr.fields]

theorem toNat_fieldB_of_decode {w : Word} {i : Instr} (h : decode w = .ok i) :
    i.fieldB.toNat = w.toNat / 2 ^ 8 % 256 := by
  rw [← toNat_fields_b, decode_eq_ok_iff.mp h, Instr.fields]

theorem toNat_opcode_of_decode {w : Word} {i : Instr} (h : decode w = .ok i) :
    i.opcode.toNat = w.toNat / 2 ^ 24 := by
  rw [← toNat_fields_op, decode_eq_ok_iff.mp h, Instr.fields]

theorem toNat_mod_eq_zero_of_decode {w : Word} {i : Instr} (h : decode w = .ok i) : w.toNat % 256 = 0 := by
  rw [← toNat_fields_z, decode_eq_ok_iff.mp h]
  rfl

/-- The opcodes of the commands that have an operand A (R46). -/
theorem Instr.opcode_of_format_ne_n {i : Instr} (h : i.format ≠ .n) :
    i.opcode.toNat ∈ [0x02, 0x03, 0x12, 0x13, 0x14] := by
  cases i with
  | pushb | gfmul | rddcw | rdcw | rdmod => simp [Instr.opcode]
  | nop | clear | vsel | pack | ilv | mfunc | mfmt | mdata | gen | rdstat | rdflt => exact absurd rfl h

/-- The opcodes of the commands that have an operand B (R46). -/
theorem Instr.opcode_of_format_eq_ab {i : Instr} (h : i.format = .ab) : i.opcode.toNat ∈ [0x03, 0x14] := by
  cases i with
  | gfmul | rdmod => simp [Instr.opcode]
  | nop | clear | pushb | vsel | pack | ilv | mfunc | mfmt | mdata | gen | rdstat | rdflt | rddcw | rdcw => cases h

/-- Settles O3: the operands of a command are the A and B fields of its word. -/
theorem operandsAreWordFields : Obligations.OperandsAreWordFields := by
  intro w a b
  exact ⟨fun h => toNat_fieldA_of_decode h, fun h => toNat_fieldA_of_decode h, fun h => toNat_fieldA_of_decode h,
    fun h => ⟨toNat_fieldA_of_decode h, toNat_fieldB_of_decode h⟩,
    fun h => ⟨toNat_fieldA_of_decode h, toNat_fieldB_of_decode h⟩⟩

/-- Settles O7, by running the decoder on each word. -/
theorem sampleWordsDecode : Obligations.SampleWordsDecode :=
  ⟨rfl, rfl, rfl, rfl, rfl, rfl, rfl, rfl⟩

end Sys2Proof
end

/-! ### Faults, and the answer to a word -/

section
namespace Sys2Proof.Machine

open Sys2Proof.Claims

variable {s t : State}

/-- The machine's fault entry is R166's record. -/
theorem raise_eq_recorded (s : State) (code : FaultCode) (cmd : Word) : s.raise code cmd = recorded s code cmd := by
  by_cases h : s.flt = .none
  · rw [State.raise_first h, recorded, if_pos h, if_pos h]
  · rw [State.raise_later h, recorded, if_neg h, if_neg h]

/-- A word that the decoder rejects is recorded as IllegalCommand and answered with RES (R48, R49). -/
theorem step_rejected {w : Word} {rest : List HostAction} {e : Reject} (hhost : s.host = .command w :: rest)
    (hdec : decode w = .error e) : step s = .next (answeredIllegal s w rest) := by
  rw [step_command hhost, runCommand_error hdec, raise_eq_recorded]
  rfl

/-- Settles O4: such a word fails the decoder's first check. -/
theorem reservedOpcodeRaisesIllegalCommand : Obligations.ReservedOpcodeRaisesIllegalCommand := by
  intro s w rest hhost hop
  obtain ⟨-, hreserved, -⟩ := decoderAcceptsWellFormedWords w
  refine step_rejected hhost (hreserved.mpr ?_)
  simpa [opcodeReserved, toNat_fields_op] using hop

/-- Settles O5: a word that decodes to a command has no such field. -/
theorem nonzeroUnusedFieldRaisesIllegalCommand : Obligations.NonzeroUnusedFieldRaisesIllegalCommand := by
  intro s w rest hhost hfield
  cases hdec : decode w with
  | error e => exact step_rejected hhost hdec
  | ok i =>
    exfalso
    have hop := toNat_opcode_of_decode hdec
    obtain hz | ⟨hb, hop3, hop14⟩ | ⟨ha, hop2, hop3, hop12, hop13, hop14⟩ := hfield
    · exact hz (toNat_mod_eq_zero_of_decode hdec)
    · have hfmt : i.format = .ab := by
        refine Decidable.byContradiction fun hfmt => ?_
        rw [← toNat_fieldB_of_decode hdec, Instr.fieldB_eq_zero hfmt] at hb
        exact hb rfl
      have hmem := Instr.opcode_of_format_eq_ab hfmt
      simp only [hop, hop3, hop14, List.mem_cons, List.not_mem_nil, or_self] at hmem
    · have hfmt : i.format ≠ .n := by
        intro hfmt
        rw [← toNat_fieldA_of_decode hdec, Instr.fieldA_eq_zero hfmt] at ha
        exact ha rfl
      have hmem := Instr.opcode_of_format_ne_n hfmt
      simp only [hop, hop2, hop3, hop12, hop13, hop14, List.mem_cons, List.not_mem_nil, or_self] at hmem

/-! ### The phase check -/

/-- The machine's phase check is the table of R56. -/
theorem legal_iff_mem_legalPhases (i : Instr) (p : Phase) : legal i p = true ↔ p ∈ legalPhases i := by
  cases i <;> cases p <;> simp [legal, legalPhases]

/-- A rule never records SequenceError: it leaves FLT or records IndexRange (R163, R164). -/
theorem ruleOf_flt {i : Instr} (h : ruleOf i s = .next t) : t.flt = s.flt ∨ t.flt = .indexRange := by
  cases hi : producesResult i with
  | false =>
    obtain ⟨-, hflt, -⟩ := sameRecords_ruleOf hi h
    exact .inl hflt
  | true =>
    obtain ⟨w, rfl⟩ | rfl := ruleOf_next_of_producesResult hi h
    · exact .inl rfl
    · rw [State.raise_flt]
      split
      · exact .inr rfl
      · exact .inl rfl

/-- Settles O15: out of phase the fault entry is all that happens, and in phase the command's rule runs. -/
theorem illegalPhaseRaisesSequenceError : Obligations.IllegalPhaseRaisesSequenceError := by
  intro i s
  rw [← legal_iff_mem_legalPhases, exec_eq_guarded_ruleOf]
  constructor
  · intro hl
    rw [guarded_illegal (Bool.not_eq_true _ ▸ hl), raise_eq_recorded]
  · intro hl t h ht
    rw [guarded_legal hl] at h
    obtain hflt | hflt := ruleOf_flt h
    · exact hflt ▸ ht
    · cases hflt ▸ ht

/-! ### The host's side of the port -/

/-- What the host is going to do and what it got back are as they were. -/
def sameHostPort (s t : State) : Prop :=
  t.host = s.host ∧ t.rsp = s.rsp

theorem sameHostPort.trans {u : State} (h : sameHostPort s t) (h' : sameHostPort t u) : sameHostPort s u := by
  obtain ⟨hhost, hrsp⟩ := h
  obtain ⟨hhost', hrsp'⟩ := h'
  exact ⟨hhost'.trans hhost, hrsp'.trans hrsp⟩

theorem sameHostPort_raise (s : State) (c : FaultCode) (w : Word) : sameHostPort s (s.raise c w) :=
  ⟨State.raise_host s c w, State.raise_rsp s c w⟩

/-- No rule of a single command touches the port; GEN runs several of them. -/
theorem sameHostPort_ruleOf_single {i : Instr} (hgen : i ≠ .gen) (h : ruleOf i s = .next t) : sameHostPort s t := by
  cases i with
  | nop | clear => cases h; exact ⟨rfl, rfl⟩
  | pushb a =>
    cases h
    obtain ⟨-, hs⟩ | ⟨-, hs⟩ := pushbBody_cases a s <;> rw [hs] <;> exact ⟨rfl, rfl⟩
  | vsel =>
    cases h
    obtain ⟨v, -, -, hs⟩ | ⟨-, hs⟩ := vselBody_cases s <;> rw [hs] <;> exact ⟨rfl, rfl⟩
  | pack =>
    obtain ⟨v, input, -, -, rfl⟩ := packBody_next h
    exact ⟨rfl, rfl⟩
  | ilv =>
    obtain ⟨v, data, -, -, rfl⟩ := ilvBody_next h
    exact ⟨rfl, rfl⟩
  | mfunc =>
    obtain ⟨v, -, rfl⟩ := mfuncBody_next h
    exact ⟨rfl, rfl⟩
  | mfmt =>
    obtain ⟨v, -, -, rfl⟩ := mfmtBody_next h
    exact ⟨rfl, rfl⟩
  | mdata =>
    obtain ⟨v, cws, -, -, -, rfl⟩ := mdataBody_next h
    exact ⟨rfl, rfl⟩
  | gen => exact absurd rfl hgen
  | gfmul | rdstat | rdflt | rddcw | rdcw | rdmod =>
    obtain ⟨w, rfl⟩ | rfl := ruleOf_next_of_producesResult rfl h
    · exact ⟨rfl, rfl⟩
    · exact sameHostPort_raise s _ _

theorem sameHostPort_ruleOf {i : Instr} (h : ruleOf i s = .next t) : sameHostPort s t := by
  by_cases hgen : i = .gen
  · subst hgen
    exact genBody_induct h ⟨rfl, rfl⟩ fun _ _ _ hi hrule hu =>
      hu.trans (sameHostPort_ruleOf_single (by rintro rfl; cases hi) hrule)
  · exact sameHostPort_ruleOf_single hgen h

theorem sameHostPort_exec {i : Instr} (h : exec i s = .next t) : sameHostPort s t := by
  obtain ⟨-, h⟩ | ⟨-, rfl⟩ := exec_next h
  · exact sameHostPort_ruleOf h
  · exact sameHostPort_raise s _ _

/-- Settles O9: both an executed and a rejected word leave the host's list as the step left it, and end in the response. -/
theorem responseIsResult : Obligations.ResponseIsResult := by
  intro s t w rest hhost h
  rw [step_command hhost] at h
  obtain ⟨i, u, -, hu, rfl⟩ | ⟨e, -, rfl⟩ := runCommand_next h
  · obtain ⟨hrest, -⟩ := sameHostPort_exec hu
    exact ⟨rfl, hrest⟩
  · exact ⟨rfl, State.raise_host _ _ _⟩

end Sys2Proof.Machine
end

/-! ### The field by repeated doubling -/

section
namespace Sys2Proof.Machine

/-! #### Doubling is linear and reduces by 0x11D -/

theorem double_zero : double 0 = 0 := rfl

theorem double_xor (x y : Byte) : double (x ^^^ y) = double x ^^^ double y := by
  have hshift : (x ^^^ y) <<< 1 = x <<< 1 ^^^ y <<< 1 := BitVec.shiftLeft_xor_distrib x y 1
  unfold double
  rw [BitVec.msb_xor, hshift]
  cases x.msb <;> cases y.msb <;> grind

/-- Doubling as R60 writes it, on 9-bit values. -/
theorem toNat_double (x : Byte) :
    (double x).toNat = if x.toNat * 2 < 256 then x.toNat * 2 else x.toNat * 2 ^^^ 0x11D := by
  revert x
  decide +kernel

theorem double_ne_zero {x : Byte} (h : x ≠ 0) : double x ≠ 0 := by
  revert x
  decide +kernel

/-- The value `x` after `n` rounds of the loop of R60. -/
def doubleTimes : Nat → Byte → Byte
  | 0, x => x
  | n + 1, x => double (doubleTimes n x)

theorem doubleTimes_succ (n : Nat) (x : Byte) : doubleTimes (n + 1) x = double (doubleTimes n x) := rfl

theorem doubleTimes_add (m n : Nat) (x : Byte) : doubleTimes (m + n) x = doubleTimes m (doubleTimes n x) := by
  induction m with
  | zero => rw [Nat.zero_add, doubleTimes]
  | succ m ih => rw [Nat.succ_add, doubleTimes_succ, doubleTimes_succ, ih]

theorem doubleTimes_zero (n : Nat) : doubleTimes n 0 = 0 := by
  induction n with
  | zero => rfl
  | succ n ih => rw [doubleTimes_succ, ih, double_zero]

theorem doubleTimes_xor (n : Nat) (x y : Byte) : doubleTimes n (x ^^^ y) = doubleTimes n x ^^^ doubleTimes n y := by
  induction n with
  | zero => rfl
  | succ n ih => simp only [doubleTimes_succ, ih, double_xor]

theorem doubleTimes_ne_zero (n : Nat) {x : Byte} (h : x ≠ 0) : doubleTimes n x ≠ 0 := by
  induction n with
  | zero => exact h
  | succ n ih => rw [doubleTimes_succ]; exact double_ne_zero ih

/-! #### The tables hold the powers of 2 -/

@[simp] theorem length_powersFrom (n : Nat) (x : Byte) : (powersFrom n x).length = n := by
  induction n generalizing x with
  | zero => rfl
  | succ n ih => rw [powersFrom, List.length_cons, ih]

theorem getElem_powersFrom (n i : Nat) (x : Byte) (h : i < (powersFrom n x).length) :
    (powersFrom n x)[i] = doubleTimes i x := by
  induction n generalizing i x with
  | zero => cases h
  | succ n ih =>
    cases i with
    | zero => rfl
    | succ i =>
      rw [doubleTimes_add i 1]
      exact ih i (double x) (Nat.lt_of_succ_lt_succ h)

@[simp] theorem length_expLow : expLow.length = 255 :=
  length_powersFrom 255 1

@[simp] theorem getElem_expLow (i : Nat) (h : i < expLow.length) : expLow[i] = doubleTimes i 1 :=
  getElem_powersFrom 255 i 1 h

/-- 255 doublings lead from 1 back to 1, so the powers of 2 repeat. -/
theorem doubleTimes_one_add_period (i : Nat) : doubleTimes (i + 255) 1 = doubleTimes i 1 := by
  have hperiod : doubleTimes 255 1 = 1 := by decide +kernel
  rw [doubleTimes_add, hperiod]

/-- `EXP[i] = α^i` (R60), in each of the three copies of the first 255 entries that make up EXP. -/
theorem expEntry_eq_doubleTimes (i : Fin 512) : expEntry i = doubleTimes i.val 1 := by
  have hi := i.isLt
  simp only [expEntry, expTable, List.getElem_take, List.getElem_append, List.length_append, length_expLow,
    getElem_expLow]
  split
  · split
    case isTrue => rfl
    case isFalse => rw [← doubleTimes_one_add_period, show i.val - 255 + 255 = i.val by omega]
  · rw [← doubleTimes_one_add_period, ← doubleTimes_one_add_period,
      show i.val - (255 + 255) + 255 + 255 = i.val by omega]

/-- The first 255 powers of 2 are distinct (R61). -/
theorem nodup_expLow : expLow.Nodup := by decide +kernel

/-- `α^LOG[a] = a` (R61). -/
theorem doubleTimes_logOf (a : Byte) (h : a ≠ 0) : doubleTimes (logOf a h).val 1 = a := by
  have hlt : expLow.idxOf a < expLow.length := by rw [length_expLow]; exact expLow_complete a h
  calc doubleTimes (expLow.idxOf a) 1
    _ = expLow[expLow.idxOf a] := (getElem_expLow _ hlt).symm
    _ = a := List.getElem_idxOf hlt

/-- `LOG[α^i] = i` (R61). -/
theorem logOf_doubleTimes (i : Fin 255) (h : doubleTimes i.val 1 ≠ 0) : logOf (doubleTimes i.val 1) h = i := by
  have hlt : i.val < expLow.length := by rw [length_expLow]; exact i.isLt
  apply Fin.ext
  change expLow.idxOf (doubleTimes i.val 1) = i.val
  rw [← getElem_expLow i.val hlt, nodup_expLow.idxOf_getElem]

/-- Settles O22: EXP holds the powers of 2. -/
theorem expTableByDoubling : Obligations.ExpTableByDoubling := by
  unfold Obligations.ExpTableByDoubling
  simp only [expEntry_eq_doubleTimes]
  refine ⟨rfl, fun i => ?_, fun i => doubleTimes_one_add_period i.val⟩
  rw [doubleTimes_succ, toNat_double]

/-- Settles O23: EXP holds the powers of 2, and LOG is the exponent. -/
theorem logInvertsExp : Obligations.LogInvertsExp := by
  unfold Obligations.LogInvertsExp
  simp only [expEntry_eq_doubleTimes]
  refine ⟨doubleTimes_logOf, fun i => ?_⟩
  have hne : doubleTimes i.val 1 ≠ 0 := doubleTimes_ne_zero i.val (by decide)
  exact ⟨hne, logOf_doubleTimes i hne⟩

/-! #### The product doubles its second factor as often as the logarithm of the first says -/

theorem gfmul_zero_left (b : Byte) : gfmul 0 b = 0 := rfl

theorem gfmul_zero_right (a : Byte) : gfmul a 0 = 0 := by
  unfold gfmul
  split
  · rfl
  · exact dif_pos rfl

theorem gfmul_of_ne_zero {a b : Byte} (ha : a ≠ 0) (hb : b ≠ 0) :
    gfmul a b = expEntry ⟨(logOf a ha).val + (logOf b hb).val, by
      have := (logOf a ha).isLt; have := (logOf b hb).isLt; omega⟩ := by
  rw [gfmul, dif_neg ha, dif_neg hb]

theorem gfmul_eq_doubleTimes {a : Byte} (ha : a ≠ 0) (b : Byte) : gfmul a b = doubleTimes (logOf a ha).val b := by
  by_cases hb : b = 0
  · rw [hb, gfmul_zero_right, doubleTimes_zero]
  · rw [gfmul_of_ne_zero ha hb, expEntry_eq_doubleTimes, doubleTimes_add, doubleTimes_logOf b hb]

/-! #### The bitwise product does the same -/

theorem clmulLoop_zero (n : Nat) (b : Byte) : clmulLoop n 0 0 b = 0 := by
  induction n generalizing b with
  | zero => rfl
  | succ n ih =>
    rw [clmulLoop]
    split <;> exact ih (b >>> 1)

theorem clmulLoop_double (n : Nat) (p a b : Byte) :
    clmulLoop n (double p) (double a) b = double (clmulLoop n p a b) := by
  induction n generalizing p a b with
  | zero => rfl
  | succ n ih =>
    simp only [clmulLoop, ← double_xor, ← ih]
    split <;> rfl

theorem clmul_doubleTimes (n : Nat) (a b : Byte) : clmul (doubleTimes n a) b = doubleTimes n (clmul a b) := by
  induction n with
  | zero => rfl
  | succ n ih =>
    rw [doubleTimes_succ, doubleTimes_succ, ← ih]
    exact clmulLoop_double 8 0 (doubleTimes n a) b

theorem clmul_one_left (b : Byte) : clmul 1 b = b := by
  revert b
  decide +kernel

/-- Settles O24: with `a = α^i`, both products are `b` doubled `i` times. -/
theorem tableProductIsPolynomialProduct : Obligations.TableProductIsPolynomialProduct := by
  intro a b
  by_cases ha : a = 0
  · rw [ha, gfmul_zero_left, clmul, clmulLoop_zero]
  · calc gfmul a b
      _ = doubleTimes (logOf a ha).val b := gfmul_eq_doubleTimes ha b
      _ = clmul (doubleTimes (logOf a ha).val 1) b := by rw [clmul_doubleTimes, clmul_one_left]
      _ = clmul a b := by rw [doubleTimes_logOf]

/-! #### The laws of the field (R64) -/

theorem gfmul_comm (a b : Byte) : gfmul a b = gfmul b a := by
  by_cases ha : a = 0
  · rw [ha, gfmul_zero_left, gfmul_zero_right]
  · by_cases hb : b = 0
    · rw [hb, gfmul_zero_left, gfmul_zero_right]
    · simp only [gfmul_of_ne_zero ha hb, gfmul_of_ne_zero hb ha, Nat.add_comm]

theorem gfmul_doubleTimes_left (n : Nat) (a b : Byte) : gfmul (doubleTimes n a) b = doubleTimes n (gfmul a b) := by
  rw [tableProductIsPolynomialProduct, tableProductIsPolynomialProduct, clmul_doubleTimes]

theorem gfmul_one_left (b : Byte) : gfmul 1 b = b := by
  rw [tableProductIsPolynomialProduct, clmul_one_left]

theorem gfmul_one_right (a : Byte) : gfmul a 1 = a := by
  rw [gfmul_comm, gfmul_one_left]

theorem gfmul_two_left (a : Byte) : gfmul 2 a = double a := by
  have h : gfmul (double 1) a = double (gfmul 1 a) := gfmul_doubleTimes_left 1 1 a
  rwa [gfmul_one_left] at h

theorem gfmul_assoc (a b c : Byte) : gfmul (gfmul a b) c = gfmul a (gfmul b c) := by
  by_cases ha : a = 0
  · simp only [ha, gfmul_zero_left]
  · rw [gfmul_eq_doubleTimes ha, gfmul_eq_doubleTimes ha, gfmul_doubleTimes_left]

theorem gfmul_xor_right (a b c : Byte) : gfmul a (b ^^^ c) = gfmul a b ^^^ gfmul a c := by
  by_cases ha : a = 0
  · subst ha
    exact BitVec.xor_self.symm
  · simp only [gfmul_eq_doubleTimes ha, doubleTimes_xor]

theorem gfmul_ne_zero {a b : Byte} (ha : a ≠ 0) (hb : b ≠ 0) : gfmul a b ≠ 0 := by
  rw [gfmul_eq_doubleTimes ha]
  exact doubleTimes_ne_zero _ hb

/-- `α^LOG[a] · α^(255 − LOG[a]) = α^255 = 1`. -/
theorem gfmul_expEntry_complement (a : Byte) (h : a ≠ 0) :
    gfmul a (expEntry ⟨255 - (logOf a h).val, by omega⟩) = 1 := by
  have hlog := (logOf a h).isLt
  rw [gfmul_eq_doubleTimes h, expEntry_eq_doubleTimes, ← doubleTimes_add,
    show (logOf a h).val + (255 - (logOf a h).val) = 0 + 255 by omega]
  exact doubleTimes_one_add_period 0

/-- A right inverse of `a` is the only one, as in every commutative monoid. -/
theorem gfmul_eq_one_iff {a c : Byte} (hc : gfmul a c = 1) (b : Byte) : gfmul a b = 1 ↔ b = c := by
  constructor
  · intro hb
    calc b
      _ = gfmul (gfmul c a) b := by rw [gfmul_comm c, hc, gfmul_one_left]
      _ = c := by rw [gfmul_assoc, hb, gfmul_one_right]
  · rintro rfl
    exact hc

/-- Settles O25, law by law. -/
theorem fieldLaws : Obligations.FieldLaws :=
  ⟨gfmul_comm, fun a => ⟨gfmul_one_right a, gfmul_zero_right a⟩, gfmul_assoc, gfmul_xor_right,
    fun _ _ => gfmul_ne_zero, fun a h => gfmul_eq_one_iff (gfmul_expEntry_complement a h),
    fun a => by rw [gfmul_two_left, toNat_double]⟩

/-! #### The command -/

/-- Settles O26: GFMUL is legal in every phase, and its rule writes RES. -/
theorem gfmulWritesProduct : Obligations.GfmulWritesProduct := by
  intro a b s
  refine ⟨gfmul a b, ?_, ?_, gfmul_of_ne_zero⟩
  · rw [exec_gfmul, guarded_legal rfl]
    rfl
  · rintro (rfl | rfl)
    · exact gfmul_zero_left b
    · exact gfmul_zero_right a

end Sys2Proof.Machine
end

/-! ### Polynomials over the field, and the encoder -/

section
namespace Sys2Proof.Machine

/-! #### Addition with 0 (R63), in the model's spelling of 0 -/

theorem zero_xor_byte (a : Byte) : 0 ^^^ a = a := BitVec.zero_xor

theorem xor_zero_byte (a : Byte) : a ^^^ 0 = a := BitVec.xor_zero

/-! #### Powers of α -/

theorem gfmul_xor_left (a b c : Byte) : gfmul (a ^^^ b) c = gfmul a c ^^^ gfmul b c := by
  rw [gfmul_comm, gfmul_xor_right, gfmul_comm c, gfmul_comm c]

theorem doubleTimes_one_add_periods (i k : Nat) : doubleTimes (i + 255 * k) 1 = doubleTimes i 1 := by
  induction k with
  | zero => rfl
  | succ k ih => rw [Nat.mul_succ, ← Nat.add_assoc, doubleTimes_one_add_period, ih]

/-- `α^i` is 1 doubled `i` times, for exponents past the end of EXP too (log entry 13). -/
theorem alphaPow_eq_doubleTimes (i : Nat) : alphaPow i = doubleTimes i 1 := by
  rw [alphaPow, expEntry_eq_doubleTimes, ← doubleTimes_one_add_periods _ (i / 255), Nat.mod_add_div]

theorem gfmul_alphaPow (i j : Nat) : gfmul (alphaPow i) (alphaPow j) = alphaPow (i + j) := by
  simp only [alphaPow_eq_doubleTimes, gfmul_doubleTimes_left, gfmul_one_left, doubleTimes_add]

/-! #### The value of a polynomial -/

/-- `x^n` in the field, by repeated products. -/
def gfpow (x : Byte) : Nat → Byte
  | 0 => 1
  | n + 1 => gfmul x (gfpow x n)

theorem gfpow_succ (x : Byte) (n : Nat) : gfpow x (n + 1) = gfmul x (gfpow x n) := rfl

/-- Horner's rule from the value `acc` on: `acc` is what the coefficients before `p` have given. -/
theorem foldl_horner (x acc : Byte) (p : List Byte) :
    p.foldl (fun acc c => gfmul acc x ^^^ c) acc = gfmul acc (gfpow x p.length) ^^^ polyEval x p := by
  induction p generalizing acc with
  | nil =>
    rw [List.length_nil, gfpow, gfmul_one_right]
    exact (xor_zero_byte acc).symm
  | cons c p ih =>
    rw [polyEval, List.foldl_cons, List.foldl_cons, ih, ih]
    simp only [gfmul_xor_left, gfmul_zero_left, gfmul_assoc, List.length_cons, gfpow, zero_xor_byte,
      BitVec.xor_assoc]

@[simp] theorem polyEval_nil (x : Byte) : polyEval x [] = 0 := rfl

theorem polyEval_append (x : Byte) (p q : List Byte) :
    polyEval x (p ++ q) = gfmul (polyEval x p) (gfpow x q.length) ^^^ polyEval x q := by
  rw [polyEval, List.foldl_append, foldl_horner, ← polyEval]

theorem polyEval_cons (x c : Byte) (p : List Byte) :
    polyEval x (c :: p) = gfmul c (gfpow x p.length) ^^^ polyEval x p := by
  rw [polyEval, List.foldl_cons, foldl_horner, gfmul_zero_left, zero_xor_byte]

/-- A further coefficient multiplies by `x` what stands before it. -/
theorem polyEval_concat (x c : Byte) (p : List Byte) : polyEval x (p ++ [c]) = gfmul (polyEval x p) x ^^^ c := by
  rw [polyEval, List.foldl_append]
  rfl

theorem polyEval_xor (x : Byte) {p q : List Byte} (h : p.length = q.length) :
    polyEval x (List.zipWith (· ^^^ ·) p q) = polyEval x p ^^^ polyEval x q := by
  induction p generalizing q with
  | nil =>
    rw [List.eq_nil_of_length_eq_zero h.symm]
    exact (zero_xor_byte 0).symm
  | cons c p ih =>
    cases q with
    | nil => cases h
    | cons d q =>
      have hlen : p.length = q.length := Nat.succ.inj h
      simp only [List.zipWith_cons_cons, polyEval_cons, List.length_zipWith, hlen, Nat.min_self, gfmul_xor_left, ih hlen]
      ac_rfl

theorem polyEval_scale (x a : Byte) (p : List Byte) :
    polyEval x (p.map (gfmul · a)) = gfmul (polyEval x p) a := by
  induction p with
  | nil => rfl
  | cons c p ih =>
    rw [List.map_cons, polyEval_cons, polyEval_cons, List.length_map, ih, gfmul_xor_left, gfmul_assoc,
      gfmul_comm a, ← gfmul_assoc]

/-! #### The generator polynomial (R70) -/

/-- The convolution of R70 is `x·g + a·g`, where `prev` stands before the coefficients of `g`. -/
theorem mulFactor_eq_zipWith (a prev : Byte) (g : List Byte) :
    mulFactor a prev g = List.zipWith (· ^^^ ·) (g ++ [0]) ((prev :: g).map (gfmul · a)) := by
  induction g generalizing prev with
  | nil => simp [mulFactor]
  | cons c g ih => rw [mulFactor, ih]; rfl

theorem polyEval_mulFactor (x a : Byte) (g : List Byte) :
    polyEval x (mulFactor a 0 g) = gfmul (polyEval x g) (x ^^^ a) := by
  rw [mulFactor_eq_zipWith, polyEval_xor x (by simp), polyEval_concat, polyEval_scale, polyEval_cons, gfmul_zero_left,
    zero_xor_byte, xor_zero_byte, gfmul_xor_right]

/-- `α^0` to `α^(n−1)` are roots: each factor brings its own and keeps those before it. -/
theorem polyEval_genpoly {n i : Nat} (h : i < n) : polyEval (alphaPow i) (genpoly n) = 0 := by
  induction n with
  | zero => cases h
  | succ n ih =>
    rw [genpoly, polyEval_mulFactor]
    obtain hlt | rfl := Nat.lt_succ_iff_lt_or_eq.mp h
    · rw [ih hlt, gfmul_zero_left]
    · rw [BitVec.xor_self]
      exact gfmul_zero_right _

theorem head?_mulFactor (a : Byte) {g : List Byte} (hg : g ≠ []) : (mulFactor a 0 g).head? = g.head? := by
  cases g with
  | nil => exact absurd rfl hg
  | cons c g => rw [mulFactor, List.head?_cons, gfmul_zero_left, xor_zero_byte, List.head?_cons]

theorem genpoly_ne_nil (n : Nat) : genpoly n ≠ [] :=
  List.ne_nil_of_length_eq_add_one (length_genpoly n)

theorem head?_genpoly (n : Nat) : (genpoly n).head? = some 1 := by
  induction n with
  | zero => rfl
  | succ n ih => rw [genpoly, head?_mulFactor _ (genpoly_ne_nil n), ih]

theorem getLast?_mulFactor (a prev : Byte) (g : List Byte) :
    (mulFactor a prev g).getLast? = (prev :: g).getLast?.map (gfmul · a) := by
  induction g generalizing prev with
  | nil => rfl
  | cons c g ih =>
    rw [mulFactor, List.getLast?_cons, ih, List.getLast?_cons_cons, List.getLast?_cons]
    rfl

/-- The sum `0 + 1 + … + n`, from the sum up to `n − 1`. -/
theorem triangle_succ (n : Nat) : (n + 1) * (n + 1 - 1) / 2 = n * (n - 1) / 2 + n := by
  have hsum : (n + 1) * (n + 1 - 1) = n * (n - 1) + n * 2 := by
    cases n with
    | zero => rfl
    | succ n => simp only [Nat.add_sub_cancel, Nat.add_mul, Nat.mul_add, Nat.mul_one, Nat.one_mul]; omega
  rw [hsum, Nat.add_mul_div_right _ _ (by decide)]

/-- The last coefficient is the product of the roots, `α^(0 + 1 + … + (n−1))`. -/
theorem getLast?_genpoly (n : Nat) : (genpoly n).getLast? = some (alphaPow (n * (n - 1) / 2)) := by
  induction n with
  | zero => rfl
  | succ n ih =>
    rw [genpoly, getLast?_mulFactor, List.getLast?_cons, ih, triangle_succ, ← gfmul_alphaPow]
    rfl

/-- Settles O27: each part is an induction over the factors. -/
theorem generatorPolynomialShape : Obligations.GeneratorPolynomialShape := fun n _ =>
  ⟨length_genpoly n, head?_genpoly n, getLast?_genpoly n, fun _ => polyEval_genpoly⟩

/-- Settles O28: the product of R70, multiplied out. -/
theorem generatorPolynomialsListed : Obligations.GeneratorPolynomialsListed := by
  unfold Obligations.GeneratorPolynomialsListed
  decide +kernel

/-- The generator's taps, `G[1..n]`. -/
theorem length_tail_genpoly (n : Nat) : (genpoly n).tail.length = n := by
  rw [List.length_tail, length_genpoly, Nat.add_sub_cancel]

theorem one_cons_tail_genpoly (n : Nat) : 1 :: (genpoly n).tail = genpoly n := by
  obtain ⟨taps, htaps⟩ := List.head?_eq_some_iff.mp (head?_genpoly n)
  rw [htaps, List.tail_cons]

/-! #### The division step (R71) -/

/-- The shifted accumulator is xored with the factor times the taps; for the factor 0 that leaves the shift alone. -/
theorem divStep_cons {taps r : List Byte} (c f : Byte) (h : taps.length = r.length + 1) :
    divStep taps (c :: r) f = List.zipWith (· ^^^ ·) (r ++ [0]) (taps.map (gfmul · f)) := by
  rw [divStep, List.tail_cons]
  split
  case isTrue hf =>
    subst hf
    refine List.ext_getElem (by simp [h]) fun k _ _ => ?_
    rw [List.getElem_zipWith, List.getElem_map, gfmul_zero_right, xor_zero_byte]
  case isFalse => rw [mulXor, List.zipWith_map_right]

theorem rsStep_cons {taps r : List Byte} (c d : Byte) (h : taps.length = r.length + 1) :
    rsStep taps (c :: r) d = List.zipWith (· ^^^ ·) (r ++ [0]) (taps.map (gfmul · (c ^^^ d))) :=
  divStep_cons c (c ^^^ d) h

theorem rsStep_zero (taps : List Byte) {n : Nat} (hn : 1 ≤ n) :
    rsStep taps (List.replicate n 0) 0 = List.replicate n 0 := by
  obtain ⟨m, rfl⟩ := Nat.exists_eq_add_of_le' hn
  calc rsStep taps (0 :: List.replicate m 0) 0
    _ = List.replicate m 0 ++ [0] := if_pos (xor_zero_byte 0)
    _ = List.replicate (m + 1) 0 := List.replicate_succ'.symm

/-- A step keeps the length `m + 1` of the accumulator. -/
theorem length_rsStep_of_succ {m : Nat} {taps r : List Byte} (ht : taps.length = m + 1) (hr : r.length = m + 1)
    (d : Byte) : (rsStep taps r d).length = m + 1 :=
  (length_rsStep (List.ne_nil_of_length_eq_add_one hr) (ht.trans hr.symm) d).trans hr

/-- At a root `x` of the generator, a step multiplies the accumulator by `x` and adds the byte times `x^n`. -/
theorem polyEval_rsStep {m : Nat} {x : Byte} {taps r : List Byte} (ht : taps.length = m + 1) (hr : r.length = m + 1)
    (hroot : polyEval x (1 :: taps) = 0) (d : Byte) :
    polyEval x (rsStep taps r d) = gfmul (polyEval x r) x ^^^ gfmul d (gfpow x (m + 1)) := by
  obtain ⟨c, r, rfl⟩ := List.exists_cons_of_length_eq_add_one hr
  obtain rfl : r.length = m := Nat.succ.inj hr
  have htaps : polyEval x taps = gfpow x (r.length + 1) := by
    rw [polyEval_cons, gfmul_one_left, ht] at hroot
    exact (BitVec.xor_eq_zero_iff.mp hroot).symm
  have hlead : gfmul (gfmul c (gfpow x r.length)) x = gfmul c (gfpow x (r.length + 1)) := by
    rw [gfpow, gfmul_assoc, gfmul_comm x]
  calc polyEval x (rsStep taps (c :: r) d)
    _ = gfmul (polyEval x r) x ^^^ gfmul (c ^^^ d) (gfpow x (r.length + 1)) := by
      rw [rsStep_cons c d ht, polyEval_xor x (by simp [ht]), polyEval_concat, polyEval_scale, htaps, xor_zero_byte,
        gfmul_comm (gfpow x _)]
    _ = gfmul (polyEval x (c :: r)) x ^^^ gfmul d (gfpow x (r.length + 1)) := by
      rw [polyEval_cons, gfmul_xor_left, gfmul_xor_left, hlead]
      ac_rfl

/-- A step is linear in the accumulator and the byte together. -/
theorem rsStep_xor {m : Nat} {taps r s : List Byte} (ht : taps.length = m + 1) (hr : r.length = m + 1)
    (hs : s.length = m + 1) (d e : Byte) :
    rsStep taps (List.zipWith (· ^^^ ·) r s) (d ^^^ e) =
      List.zipWith (· ^^^ ·) (rsStep taps r d) (rsStep taps s e) := by
  obtain ⟨a, r, rfl⟩ := List.exists_cons_of_length_eq_add_one hr
  obtain ⟨b, s, rfl⟩ := List.exists_cons_of_length_eq_add_one hs
  have hrs : r.length = s.length := Nat.succ.inj (hr.trans hs.symm)
  have hfactor : a ^^^ b ^^^ (d ^^^ e) = a ^^^ d ^^^ (b ^^^ e) := by ac_rfl
  have hshift : List.zipWith (· ^^^ ·) r s ++ [0] = List.zipWith (· ^^^ ·) (r ++ [0]) (s ++ [(0 : Byte)]) := by
    rw [List.zipWith_append hrs]
    rfl
  rw [List.zipWith_cons_cons, rsStep_cons _ _ (by simp [ht, ← hr, hrs]), rsStep_cons a d (ht.trans hr.symm),
    rsStep_cons b e (ht.trans hs.symm), hfactor, hshift]
  refine List.ext_getElem (by simp [hrs]) fun k _ _ => ?_
  simp only [List.getElem_zipWith, List.getElem_map, gfmul_xor_right _ (a ^^^ d)]
  ac_rfl

/-! #### The encoder -/

theorem polyEval_replicate_zero (x : Byte) (n : Nat) : polyEval x (List.replicate n 0) = 0 := by
  induction n with
  | zero => rfl
  | succ n ih => rw [List.replicate_succ, polyEval_cons, ih, gfmul_zero_left, xor_zero_byte]

/-- At a root `x` of the generator, dividing `data` multiplies the accumulator by `x` once per byte and adds the data
times `x^n`. -/
theorem polyEval_foldl_rsStep {m : Nat} {x : Byte} {taps : List Byte} (ht : taps.length = m + 1)
    (hroot : polyEval x (1 :: taps) = 0) (data : List Byte) {r : List Byte} (hr : r.length = m + 1) :
    polyEval x (data.foldl (rsStep taps) r) =
      gfmul (polyEval x r) (gfpow x data.length) ^^^ gfmul (polyEval x data) (gfpow x (m + 1)) := by
  induction data generalizing r with
  | nil =>
    rw [List.length_nil, gfpow, gfmul_one_right]
    exact (xor_zero_byte _).symm
  | cons d data ih =>
    have hswap : gfmul (gfmul d (gfpow x (m + 1))) (gfpow x data.length) =
        gfmul (gfmul d (gfpow x data.length)) (gfpow x (m + 1)) := by
      rw [gfmul_assoc, gfmul_assoc, gfmul_comm (gfpow x (m + 1))]
    rw [List.foldl_cons, ih (length_rsStep_of_succ ht hr d), polyEval_rsStep ht hr hroot, gfmul_xor_left, hswap,
      gfmul_assoc, polyEval_cons, gfmul_xor_left, BitVec.xor_assoc, List.length_cons, gfpow_succ x data.length]

/-- R72: at a root of the generator the EC bytes have the value of the data times `x^n`. -/
theorem polyEval_rsEncode {x : Byte} {n : Nat} (hn : 1 ≤ n) (hroot : polyEval x (genpoly n) = 0) (data : List Byte) :
    polyEval x (rsEncode data n) = gfmul (polyEval x data) (gfpow x n) := by
  obtain ⟨m, rfl⟩ := Nat.exists_eq_add_of_le' hn
  rw [← one_cons_tail_genpoly] at hroot
  rw [rsEncode, polyEval_foldl_rsStep (length_tail_genpoly _) hroot data List.length_replicate,
    polyEval_replicate_zero, gfmul_zero_left, zero_xor_byte]

/-- Settles O29: the value of `data ++ ec` at a root is the value of the data times `x^n`, added to itself. -/
theorem syndromesVanish : Obligations.SyndromesVanish := by
  intro data n i hn hi
  rw [polyEval_append, length_rsEncode data hn, polyEval_rsEncode hn (polyEval_genpoly hi)]
  exact BitVec.xor_self

/-- The division is linear in the data and the accumulator it starts from together. -/
theorem foldl_rsStep_xor {m : Nat} {taps d e r s : List Byte} (ht : taps.length = m + 1) (hr : r.length = m + 1)
    (hs : s.length = m + 1) (hde : d.length = e.length) :
    (List.zipWith (· ^^^ ·) d e).foldl (rsStep taps) (List.zipWith (· ^^^ ·) r s) =
      List.zipWith (· ^^^ ·) (d.foldl (rsStep taps) r) (e.foldl (rsStep taps) s) := by
  induction d generalizing e r s with
  | nil => rw [List.eq_nil_of_length_eq_zero hde.symm]; rfl
  | cons x d ih =>
    obtain ⟨y, e, rfl⟩ := List.exists_cons_of_length_eq_add_one hde.symm
    rw [List.zipWith_cons_cons, List.foldl_cons, rsStep_xor ht hr hs]
    exact ih (length_rsStep_of_succ ht hr x) (length_rsStep_of_succ ht hs y) (Nat.succ.inj hde)

theorem rsEncode_xor {d e : List Byte} {n : Nat} (hn : 1 ≤ n) (hde : d.length = e.length) :
    rsEncode (List.zipWith (· ^^^ ·) d e) n = List.zipWith (· ^^^ ·) (rsEncode d n) (rsEncode e n) := by
  obtain ⟨m, rfl⟩ := Nat.exists_eq_add_of_le' hn
  have hzero : List.replicate (m + 1) (0 : Byte) =
      List.zipWith (· ^^^ ·) (List.replicate (m + 1) 0) (List.replicate (m + 1) 0) := by
    rw [List.zipWith_replicate', xor_zero_byte]
  rw [rsEncode, hzero]
  exact foldl_rsStep_xor (length_tail_genpoly _) List.length_replicate List.length_replicate hde

theorem rsEncode_zero (k : Nat) {n : Nat} (hn : 1 ≤ n) : rsEncode (List.replicate k 0) n = List.replicate n 0 := by
  induction k with
  | zero => rfl
  | succ k ih =>
    rw [rsEncode, List.replicate_succ, List.foldl_cons, rsStep_zero _ hn]
    exact ih

/-- Settles O30: the division is linear, and zero bytes leave the zero accumulator as it is. -/
theorem encoderIsLinear : Obligations.EncoderIsLinear := fun d _ _ hn hde =>
  ⟨length_rsEncode d hn, rsEncode_xor hn hde, rsEncode_zero d.length hn⟩

end Sys2Proof.Machine
end

/-! ### The capacity table and the version selector -/

section
namespace Sys2Proof.Machine

variable {s t : State}

/-! #### The table (R80, R81) -/

/-- Settles O31: the invariant is the table's soundness, and the values are evaluated. -/
theorem capacityTableValues : Obligations.CapacityTableValues := by
  refine ⟨fun v => ?_, by decide⟩
  obtain ⟨hbalanced, -, -⟩ := cap_sound v
  exact beq_iff_eq.mp hbalanced

theorem dataCodewords_le (v : Version) : (cap v).dataCodewords ≤ (cap .v6).dataCodewords := by
  cases v <;> decide

/-! #### The order of the versions (R83) -/

theorem Version.mem_all (v : Version) : v ∈ Version.all := by
  cases v <;> decide

theorem Version.pairwise_number_all : Version.all.Pairwise fun u v => u.number < v.number := by
  decide

/-- In a cut of the versions at `v`, the smaller ones stand before it. -/
theorem Version.mem_left_of_number_lt {u v : Version} {as bs : List Version} (hall : Version.all = as ++ v :: bs)
    (hu : u.number < v.number) : u ∈ as := by
  have hmem : u ∈ as ++ v :: bs := hall ▸ Version.mem_all u
  have hsorted := Version.pairwise_number_all
  rw [hall, List.pairwise_append, List.pairwise_cons] at hsorted
  obtain ⟨-, ⟨hright, -⟩, -⟩ := hsorted
  obtain hleft | rfl | hbs := by simpa only [List.mem_append, List.mem_cons] using hmem
  · exact hleft
  · exact absurd hu (Nat.lt_irrefl _)
  · exact absurd hu (Nat.lt_asymm (hright u hbs))

/-! #### What the selector answers (R83) -/

/-- A search tries the versions one after another. -/
theorem find?_version_cons (p : Version → Prop) [DecidablePred p] (v : Version) (vs : List Version) :
    (v :: vs).find? (fun u => decide (p u)) = if p v then some v else vs.find? (fun u => decide (p u)) := by
  by_cases h : p v <;> simp [h]

/-- The selector by length, with the values of R81. -/
theorem selectVersion_eq_ranges (len : Nat) :
    selectVersion len = if len ≤ 17 then some .v1 else if len ≤ 32 then some .v2 else if len ≤ 53 then some .v3
      else if len ≤ 78 then some .v4 else if len ≤ 106 then some .v5 else if len ≤ 134 then some .v6 else none := by
  simp only [selectVersion, Version.all, find?_version_cons, List.find?_nil]
  simp [cap, Config.default, Config.defaultCap]

/-- The version selected holds the input and 2 bytes more, and is the first one that does. -/
theorem firstFit_of_selectVersion {len : Nat} {v : Version} (h : selectVersion len = some v) :
    len + 2 ≤ (cap v).dataCodewords ∧ ∀ u : Version, u.number < v.number → (cap u).dataCodewords < len + 2 := by
  obtain ⟨hfits, as, bs, hall, hbefore⟩ := List.find?_eq_some_iff_append.mp h
  refine ⟨of_decide_eq_true hfits, fun u hu => ?_⟩
  simpa using hbefore u (Version.mem_left_of_number_lt hall hu)

theorem selectVersion_eq_none_iff {len : Nat} :
    selectVersion len = none ↔ ∀ v, (cap v).dataCodewords < len + 2 := by
  simp [selectVersion, Version.mem_all]

/-- The largest version has 136 data codewords. -/
theorem selectVersion_eq_none_iff_le {len : Nat} : selectVersion len = none ↔ 135 ≤ len := by
  have hlargest : (cap .v6).dataCodewords = 136 := rfl
  rw [selectVersion_eq_none_iff]
  constructor
  · intro h
    have := h .v6
    omega
  · intro h v
    have := dataCodewords_le v
    omega

/-- Settles O32: the search by ranges, what it stops at, and what it means that it finds nothing. -/
theorem selectorTakesFirstFit : Obligations.SelectorTakesFirstFit := fun len =>
  ⟨selectVersion_eq_ranges len, fun _ => firstFit_of_selectVersion, selectVersion_eq_none_iff.mp⟩

/-! #### VSEL and GEN in LOAD (R84, R85) -/

theorem exec_vsel_load (hp : s.phase = .load) : exec .vsel s = .next (vselBody s) := by
  rw [exec_vsel, guarded_legal (by rw [hp]; rfl)]

theorem exec_gen_load (hp : s.phase = .load) : exec .gen s = genBody s := by
  rw [exec_gen, guarded_legal (by rw [hp]; rfl)]

theorem vselBody_of_fits (hovf : s.ovf = false) (hlen : s.len.toNat ≤ 134) :
    ∃ v, selectVersion s.len.toNat = some v ∧ vselBody s = { s with ver := some v, phase := .selected } := by
  obtain ⟨v, -, hsel, hs⟩ | ⟨hovf' | hnone, -⟩ := vselBody_cases s
  · exact ⟨v, hsel, hs⟩
  · simp [hovf] at hovf'
  · have := selectVersion_eq_none_iff_le.mp hnone
    omega

theorem vselBody_of_not_fits (h : s.ovf = true ∨ 135 ≤ s.len.toNat) : vselBody s = s.failCapacity := by
  obtain ⟨v, hovf, hsel, -⟩ | ⟨-, hs⟩ := vselBody_cases s
  · rw [← selectVersion_eq_none_iff_le, hovf, hsel] at h
    simp at h
  · exact hs

/-- GEN ends with its selection when that fails (R150). -/
theorem genBody_of_vselBody_error (h : (vselBody s).phase = .error) : genBody s = .next (vselBody s) :=
  if_pos h

/-- No stage after the selection fails, so GEN ends in ERROR only where VSEL does. -/
theorem vselBody_error_of_genBody (h : genBody s = .next t) (ht : t.phase = .error) :
    (vselBody s).phase = .error := by
  obtain ⟨hp, -⟩ | ⟨-, s2, s3, s4, s5, -, -, -, -, h6⟩ := genBody_next h
  · exact hp
  · obtain ⟨v, cws, -, -, -, rfl⟩ := mdataBody_next h6
    cases ht

/-- Settles O33: the body selects the first version that fits. -/
theorem vselSelectsVersion : Obligations.VselSelectsVersion := by
  intro s hp hovf hlen
  obtain ⟨v, hsel, hs⟩ := vselBody_of_fits hovf hlen
  exact ⟨v, by rw [exec_vsel_load hp, hs], firstFit_of_selectVersion hsel⟩

/-- Settles O34: both commands end with a selection that fails, and neither fails after one that does not. -/
theorem capacityExceededEntry : Obligations.CapacityExceededEntry := by
  intro s hp
  rw [exec_vsel_load hp, exec_gen_load hp]
  constructor
  · intro hfail
    have hs := vselBody_of_not_fits hfail
    have hgen := genBody_of_vselBody_error (s := s) (by rw [hs, State.failCapacity_phase])
    rw [hgen, hs]
    exact ⟨rfl, rfl⟩
  · intro hovf hlen t ht hterr
    have herr : (vselBody s).phase = .error := by
      obtain hvsel | hgen := ht
      · rwa [Host.Outcome.next.inj hvsel]
      · exact vselBody_error_of_genBody hgen hterr
    obtain ⟨v, -, hs⟩ := vselBody_of_fits hovf hlen
    rw [hs] at herr
    cases herr

end Sys2Proof.Machine
end

/-! ### The bitstream builder -/

section
namespace Sys2Proof.Machine

open Sys2Proof.Claims

/-! #### A byte and its bits (R32, R93) -/

/-- The bits of the low nibble of a byte, most significant first. -/
def lowBits (v : Byte) : List Bool :=
  [v.getLsbD 3, v.getLsbD 2, v.getLsbD 1, v.getLsbD 0]

theorem bitsOfByte_injective : Function.Injective bitsOfByte := by
  intro a b h
  simp only [bitsOfByte, List.cons.injEq, and_true] at h
  obtain ⟨h7, h6, h5, h4, h3, h2, h1, h0⟩ := h
  refine BitVec.eq_of_getLsbD_eq fun i hi => ?_
  match i with
  | 0 => exact h0
  | 1 => exact h1
  | 2 => exact h2
  | 3 => exact h3
  | 4 => exact h4
  | 5 => exact h5
  | 6 => exact h6
  | 7 => exact h7

/-- Grouping 8 bits and reading the byte's bits are inverse (R32, R93). -/
theorem bitsOfByte_byteOfBits (b7 b6 b5 b4 b3 b2 b1 b0 : Bool) :
    bitsOfByte (byteOfBits b7 b6 b5 b4 b3 b2 b1 b0) = [b7, b6, b5, b4, b3, b2, b1, b0] := by
  revert b7 b6 b5 b4 b3 b2 b1 b0
  decide

/-- The byte between two bytes of a stream that starts 4 bits late: the low nibble of the one before, then the high
nibble of the next (R95). -/
def straddle (before next : Byte) : Byte :=
  ((before &&& 0x0F) <<< 4) ||| (next >>> 4)

theorem byteOfBits_nibbles (a b : Byte) :
    byteOfBits (a.getLsbD 3) (a.getLsbD 2) (a.getLsbD 1) (a.getLsbD 0)
      (b.getLsbD 7) (b.getLsbD 6) (b.getLsbD 5) (b.getLsbD 4) = straddle a b := by
  apply bitsOfByte_injective
  rw [bitsOfByte_byteOfBits]
  simp [straddle, bitsOfByte]

/-! #### The bit sequence and its bytes (R90 to R93) -/

/-- Grouping bytes that follow 4 bits and are followed by 4 zero bits: each group takes half of its two neighbours. -/
theorem group_lowBits_append (a : Byte) (bs : List Byte) :
    group (lowBits a ++ bs.flatMap bitsOfByte ++ List.replicate 4 false)
      = List.zipWith straddle (a :: bs) (bs ++ [0]) := by
  induction bs generalizing a with
  | nil => exact congrArg (· :: []) (byteOfBits_nibbles a 0)
  | cons b bs ih => exact congr (congrArg List.cons (byteOfBits_nibbles a b)) (ih b)

/-- The mode indicator is the low nibble of 4, and the count is one more byte before the input (R90). -/
theorem payloadBits_eq (len : Byte) (input : List Byte) :
    payloadBits len input = lowBits 4 ++ (len :: input).flatMap bitsOfByte := rfl

theorem length_flatMap_bitsOfByte (bs : List Byte) : (bs.flatMap bitsOfByte).length = 8 * bs.length := by
  induction bs with
  | nil => rfl
  | cons b bs ih =>
    rw [List.flatMap_cons, List.length_append, ih, List.length_cons, Nat.mul_succ, Nat.add_comm]
    rfl

theorem length_payloadBits (len : Byte) (input : List Byte) :
    (payloadBits len input).length = 12 + 8 * input.length := by
  rw [payloadBits_eq, List.length_append, length_flatMap_bitsOfByte]
  simp only [lowBits, List.length_cons, List.length_nil]
  omega

/-- Where there is room for all of them, the terminator is `n` zero bits (R91). -/
theorem terminate_of_le {capbits n : Nat} {bits : List Bool} (h : bits.length + n ≤ capbits) :
    terminate capbits n bits = bits ++ List.replicate n false := by
  induction n generalizing bits with
  | zero => simp [terminate]
  | succ n ih =>
    rw [terminate, if_pos (by omega), ih (by simp; omega), List.append_assoc]
    rfl

/-- Whole bytes need no bit padding (R92). -/
theorem padToByte_of_dvd {bits : List Bool} (h : bits.length % 8 = 0) : padToByte bits = bits := by
  simp [padToByte, h]

/-- The bytes before the pad bytes: with 2 bytes of room the terminator has 4 bits, so the sequence ends with a whole
byte (R90 to R93, R96). -/
theorem payloadBytes_eq {dc : Nat} (len : Byte) {input : List Byte} (h : input.length + 2 ≤ dc) :
    payloadBytes dc len input = List.zipWith straddle (4 :: len :: input) (len :: input ++ [0]) := by
  have hlen := length_payloadBits len input
  have hroom : (payloadBits len input).length + 4 ≤ 8 * dc := by omega
  have hwhole : (payloadBits len input ++ List.replicate 4 false).length % 8 = 0 := by
    rw [List.length_append, List.length_replicate]
    omega
  rw [payloadBytes, terminate_of_le hroom, padToByte_of_dvd hwhole, payloadBits_eq, group_lowBits_append]

theorem length_payloadBytes {dc : Nat} (len : Byte) {input : List Byte} (h : input.length + 2 ≤ dc) :
    (payloadBytes dc len input).length = input.length + 2 := by
  simp [payloadBytes_eq len h]

/-! #### The closed form (R95) -/

/-- The first byte holds the mode indicator and the high nibble of the count. -/
theorem packedByte_zero {len : Byte} {input : List Byte} (hlen : len.toNat = input.length) :
    packedByte input 0 = straddle 4 len := by
  have hshift : BitVec.ofNat 8 (input.length / 16) = len >>> 4 := by
    apply BitVec.eq_of_toNat_eq
    rw [BitVec.toNat_ushiftRight, Nat.shiftRight_eq_div_pow, BitVec.toNat_ofNat, hlen, Nat.mod_eq_of_lt (by omega)]
  exact congrArg (0x40 ||| ·) hshift

theorem packedByte_one {len : Byte} {input : List Byte} (hlen : len.toNat = input.length) :
    packedByte input 1 = straddle len (input.getD 0 0) := by
  have hcount : BitVec.ofNat 8 input.length = len := by rw [← hlen, BitVec.ofNat_toNat, BitVec.setWidth_eq]
  rw [packedByte, if_neg (by decide), if_pos (by omega), if_pos rfl, hcount]
  rfl

theorem packedByte_add_two {input : List Byte} {i : Nat} (hi : i < input.length) :
    packedByte input (i + 2) = straddle (input.getD i 0) (input.getD (i + 1) 0) := by
  rw [packedByte, if_neg (by omega), if_pos (by omega), if_neg (by omega)]
  rfl

theorem packedByte_pad (input : List Byte) (i : Nat) :
    packedByte input (input.length + 2 + i) = if i % 2 = 0 then 0xEC else 0x11 := by
  rw [packedByte, if_neg (by omega), if_neg (by omega), Nat.add_sub_cancel_left]

/-- Before the pad bytes, each data codeword takes half of two neighbours in mode, count and input. -/
theorem getElem?_payloadBytes {dc : Nat} {len : Byte} {input : List Byte} (h : input.length + 2 ≤ dc)
    (hlen : len.toNat = input.length) {i : Nat} (hi : i < input.length + 2) :
    (payloadBytes dc len input)[i]? = some (packedByte input i) := by
  have hget {k : Nat} (hk : k < input.length) : input[k]? = some (input.getD k 0) := by simp [hk]
  have hnext (k : Nat) (hk : k ≤ input.length) : (input ++ [0])[k]? = some (input.getD k 0) := by
    obtain hlt | rfl := Nat.lt_or_eq_of_le hk
    · rw [List.getElem?_append_left hlt, hget hlt]
    · simp
  rw [payloadBytes_eq len h, List.getElem?_zipWith_eq_some]
  match i with
  | 0 => exact ⟨4, len, rfl, rfl, (packedByte_zero hlen).symm⟩
  | 1 => exact ⟨len, _, rfl, hnext 0 (Nat.zero_le _), (packedByte_one hlen).symm⟩
  | i + 2 =>
    have hin : i < input.length := by omega
    exact ⟨_, _, hget hin, hnext (i + 1) hin, (packedByte_add_two hin).symm⟩

/-- The pad bytes alternate from the first one on (R94). -/
theorem getElem?_padBytes {n i : Nat} (hi : i < n) (first : Bool) :
    (padBytes n first)[i]? = some (if decide (i % 2 = 0) = first then 0xEC else 0x11) := by
  induction n generalizing i first with
  | zero => omega
  | succ n ih =>
    cases i with
    | zero => simp [padBytes]
    | succ i =>
      have hparity : decide ((i + 1) % 2 = 0) = !decide (i % 2 = 0) := by
        rw [← decide_not, decide_eq_decide]
        omega
      rw [padBytes, List.getElem?_cons_succ, ih (by omega), hparity]
      simp

/-- The data codewords are the closed form at every index (R95). -/
theorem getElem?_dataCodewords {dc : Nat} {len : Byte} {input : List Byte} (h : input.length + 2 ≤ dc)
    (hlen : len.toNat = input.length) {i : Nat} (hi : i < dc) :
    (dataCodewords dc len input)[i]? = some (packedByte input i) := by
  have hbytes := length_payloadBytes len h
  rw [dataCodewords, fillTo, List.getElem?_take_of_lt hi]
  by_cases hin : i < input.length + 2
  · rw [List.getElem?_append_left (by omega), getElem?_payloadBytes h hlen hin]
  · obtain ⟨k, rfl⟩ := Nat.exists_eq_add_of_le (Nat.le_of_not_lt hin)
    rw [List.getElem?_append_right (by omega), hbytes, Nat.add_sub_cancel_left, getElem?_padBytes (by omega),
      packedByte_pad]
    simp

/-! #### PACK (R95) -/

theorem length_dataCodewords (dc : Nat) (len : Byte) (input : List Byte) : (dataCodewords dc len input).length = dc :=
  length_fillTo _ _

/-- Bytes a buffer holds are the bytes a load of their number gives. -/
theorem load_of_holds {m : Memory} {bs : List Byte} (h : holds m bs) : Memory.load m 0 bs.length = some bs :=
  Memory.load_eq_some.mpr ⟨rfl, fun j hj => (Nat.zero_add j).symm ▸ h j hj⟩

/-- What stored data codewords read as: their bytes, and beyond them what was there. -/
theorem read_store_dataCodewords (m : Memory) (dc : Nat) (len : Byte) (input : List Byte) (i : Nat) :
    Memory.read (Memory.store m 0 (dataCodewords dc len input)) i
      = if i < dc then (dataCodewords dc len input)[i]? else Memory.read m i := by
  simp [Memory.read_store, length_dataCodewords]

/-- Settles O35: the body stores the data codewords, whose closed form holds index by index. -/
theorem packBuildsDataCodewords : Obligations.PackBuildsDataCodewords := by
  intro s v input hp hv hlen hin hfits
  have hload : Memory.load s.inp 0 s.len.toNat = some input := hlen ▸ load_of_holds hin
  have hexec : exec .pack s = packBody s := by rw [exec_pack, guarded_legal (by rw [hp]; rfl)]
  refine ⟨_, hexec.trans (packBody_eq hv hload), rfl, fun i hi => ?_, fun i hi => ?_⟩
  · rw [read_store_dataCodewords, if_pos hi, getElem?_dataCodewords hfits hlen hi]
  · rw [read_store_dataCodewords, if_neg (by omega)]

end Sys2Proof.Machine
end

/-! ### The block interleaver -/

section
namespace Sys2Proof.Machine

open Sys2Proof.Claims

/-! #### A round-robin pass, position by position (R102) -/

/-- Where every piece has the length `c`, index `c * i + k` of the pieces in a row is index `k` of piece `i`. -/
theorem getElem?_flatMap_range {c n : Nat} {f : Nat → List Byte} (hf : ∀ i < n, (f i).length = c) {i k : Nat}
    (hi : i < n) (hk : k < c) : ((List.range n).flatMap f)[c * i + k]? = (f i)[k]? := by
  induction n generalizing f i with
  | zero => omega
  | succ n ih =>
    have hc : (f 0).length = c := hf 0 (Nat.zero_lt_succ n)
    rw [List.range_succ_eq_map, List.flatMap_cons, List.flatMap_map]
    cases i with
    | zero => rw [Nat.mul_zero, Nat.zero_add, List.getElem?_append_left (by omega)]
    | succ i =>
      have hidx : c * (i + 1) + k - (f 0).length = c * i + k := by rw [hc, Nat.mul_succ]; omega
      rw [List.getElem?_append_right (by rw [hc, Nat.mul_succ]; omega), hidx,
        ih (fun j hj => hf (j + 1) (Nat.succ_lt_succ hj)) (Nat.lt_of_succ_lt_succ hi)]

variable {n m i k : Nat} {blocks : List (List Byte)}

/-- Position `i` of every block, where every block has one: byte `k` comes from block `k`. -/
theorem getElem?_filterMap_getElem? (h : ∀ b ∈ blocks, i < b.length) (k : Nat) :
    (blocks.filterMap fun b => b[i]?)[k]? = blocks[k]?.bind fun b => b[i]? := by
  induction blocks generalizing k with
  | nil => rfl
  | cons b blocks ih =>
    have hget : b[i]? = some _ := List.getElem?_eq_getElem (h b List.mem_cons_self)
    rw [List.filterMap_cons_some (f := fun b : List Byte => b[i]?) hget]
    cases k with
    | zero => exact hget.symm
    | succ k => exact ih (fun b' hb' => h b' (List.mem_cons_of_mem b hb')) k

theorem getElem?_roundRobin (hb : ∀ b ∈ blocks, b.length = n) (hi : i < n) (hk : k < blocks.length) :
    (roundRobin n blocks)[blocks.length * i + k]? = blocks[k]?.bind fun b => b[i]? := by
  have hcount : ∀ j < n, (blocks.filterMap fun b => b[j]?).length = blocks.length := fun j hj =>
    List.filterMap_length_eq_length.mpr fun b hbm => by simpa [hb b hbm] using hj
  rw [roundRobin, getElem?_flatMap_range hcount hi hk,
    getElem?_filterMap_getElem? fun b hbm => by rwa [hb b hbm]]

/-- A pass over one block is the block. -/
theorem roundRobin_singleton (b : List Byte) : roundRobin b.length [b] = b := by
  have hb : ∀ b' ∈ [b], b'.length = b.length := by simp
  have hlen : (roundRobin b.length [b]).length = b.length := by simp [length_roundRobin hb]
  refine List.ext_getElem? fun i => ?_
  by_cases hi : i < b.length
  · simpa using getElem?_roundRobin hb hi (k := 0) Nat.zero_lt_one
  · rw [List.getElem?_eq_none (by omega), List.getElem?_eq_none (by omega)]

/-! #### The final order (R101, R102) -/

/-- The data pass: byte `i` of block `k` stands at index `blockCount * i + k`. -/
theorem getElem?_interleave_data (hb : ∀ b ∈ blocks, b.length = m) (hl : longest blocks = m) (hi : i < m)
    (hk : k < blocks.length) :
    (interleave n blocks)[blocks.length * i + k]? = blocks[k]?.bind fun b => b[i]? := by
  have hin : blocks.length * i + k < (roundRobin m blocks).length := by
    rw [length_roundRobin hb]
    calc blocks.length * i + k
      _ < blocks.length * (i + 1) := Nat.add_lt_add_left hk _
      _ ≤ blocks.length * m := Nat.mul_le_mul_left _ hi
      _ = m * blocks.length := Nat.mul_comm _ _
  rw [interleave, hl, List.getElem?_append_left hin, getElem?_roundRobin hb hi hk]

/-- The EC pass: after the data, EC byte `i` of block `k` stands at index `blockCount * i + k`. -/
theorem getElem?_interleave_ec (hb : ∀ b ∈ blocks, b.length = m) (hl : longest blocks = m) (hi : i < n)
    (hk : k < blocks.length) :
    (interleave n blocks)[m * blocks.length + (blocks.length * i + k)]?
      = blocks[k]?.bind fun b => (rsEncode b n)[i]? := by
  have hec : ∀ b ∈ ecOf n blocks, b.length = n := by simp [ecOf, length_rsEncode _ (Nat.one_le_of_lt hi)]
  have hcount : (ecOf n blocks).length = blocks.length := List.length_map _
  have hpass := getElem?_roundRobin hec hi (hcount ▸ hk)
  rw [hcount, ecOf, List.getElem?_map, Option.bind_map] at hpass
  rw [interleave, hl, List.getElem?_append_right (by rw [length_roundRobin hb]; omega), length_roundRobin hb,
    Nat.add_sub_cancel_left]
  exact hpass

/-- R104: with one block the final sequence is the data and then its EC bytes. -/
theorem finalCodewords_of_one_block {e : CapEntry} (he : e.blockCount = .one) (hn : 1 ≤ e.ecCodewordsPerBlock)
    (data : List Byte) : finalCodewords e data = data ++ rsEncode data e.ecCodewordsPerBlock := by
  have hlongest : longest [data] = data.length := Nat.zero_max _
  have hec := roundRobin_singleton (rsEncode data e.ecCodewordsPerBlock)
  rw [length_rsEncode data hn] at hec
  rw [finalCodewords, he, splitBlocks, interleave, hlongest, roundRobin_singleton, ecOf, List.map_singleton, hec]

/-- R81: only version 6 has two blocks. -/
theorem blockCount_cap_of_ne_v6 {v : Version} (h : v ≠ .v6) : (cap v).blockCount = .one := by
  cases v with
  | v6 => exact absurd rfl h
  | v1 | v2 | v3 | v4 | v5 => rfl

/-- R100: the two halves of the data of version 6. -/
def halves (data : List Byte) : List (List Byte) :=
  [data.take 68, data.drop 68]

theorem length_of_mem_halves {data : List Byte} (hd : data.length = 136) : ∀ b ∈ halves data, b.length = 68 := by
  simp [halves, hd]

theorem longest_halves {data : List Byte} (hd : data.length = 136) : longest (halves data) = 68 := by
  simp [halves, longest, hd]

/-- R105: version 6 interleaves the two halves of its data with 18 EC bytes a block. -/
theorem finalCodewords_v6 {data : List Byte} (hd : data.length = 136) :
    finalCodewords (cap .v6) data = interleave 18 (halves data) := by
  have hsplit : splitBlocks data .two = halves data := by rw [splitBlocks, hd, halves]
  exact congrArg (interleave 18) hsplit

/-- R105: data byte `i` of half `k` stands at index `2 * i + k`. -/
theorem getElem?_finalCodewords_v6_data {data : List Byte} (hd : data.length = 136) (hi : i < 68) (hk : k < 2) :
    (finalCodewords (cap .v6) data)[2 * i + k]? = (halves data)[k]?.bind fun b => b[i]? := by
  rw [finalCodewords_v6 hd]
  exact getElem?_interleave_data (length_of_mem_halves hd) (longest_halves hd) hi hk

/-- R105: EC byte `i` of half `k` stands at index `136 + 2 * i + k`. -/
theorem getElem?_finalCodewords_v6_ec {data : List Byte} (hd : data.length = 136) (hi : i < 18) (hk : k < 2) :
    (finalCodewords (cap .v6) data)[136 + (2 * i + k)]? = (halves data)[k]?.bind fun b => (rsEncode b 18)[i]? := by
  rw [finalCodewords_v6 hd]
  exact getElem?_interleave_ec (length_of_mem_halves hd) (longest_halves hd) hi hk

/-! #### ILV (R103) -/

/-- There are exactly as many codewords as the version's CW has places, so ILV stores them all. -/
theorem length_finalCodewords_cap {v : Version} {data : List Byte} (hd : data.length = (cap v).dataCodewords) :
    (finalCodewords (cap v) data).length = (cap v).totalCodewords := by
  obtain ⟨hbal, heven, hn⟩ := cap_sound v
  exact length_finalCodewords hbal heven hn hd

theorem exec_ilv_packed {s : State} {v : Version} {data : List Byte} (hp : s.phase = .packed) (hv : s.ver = some v)
    (hd : data.length = (cap v).dataCodewords) (hdcw : holds s.dcw data) :
    exec .ilv s = .next { s with cw := Memory.store s.cw 0 (finalCodewords (cap v) data), phase := .coded } := by
  have hload : Memory.load s.dcw 0 (cap v).dataCodewords = some data := hd ▸ load_of_holds hdcw
  rw [exec_ilv, guarded_legal (by rw [hp]; rfl), ilvBody_eq hv hload,
    List.take_of_length_le (Nat.le_of_eq (length_finalCodewords_cap hd))]

/-- What stored codewords read as: their bytes, and beyond them what was there. -/
theorem read_store_finalCodewords (mem : Memory) {v : Version} {data : List Byte}
    (hd : data.length = (cap v).dataCodewords) (i : Nat) :
    Memory.read (Memory.store mem 0 (finalCodewords (cap v) data)) i
      = if i < (cap v).totalCodewords then (finalCodewords (cap v) data)[i]? else Memory.read mem i := by
  simp [Memory.read_store, length_finalCodewords_cap hd]

/-- Settles O36: ILV stores the final sequence, which with one block is the data and its EC bytes. -/
theorem ilvOneBlock : Obligations.IlvOneBlock := by
  intro s v data hp hv hne hd hdcw
  obtain ⟨-, -, hn⟩ := cap_sound v
  refine ⟨_, exec_ilv_packed hp hv hd hdcw, rfl, fun i hi => ?_, fun i hi => ?_⟩
  · rw [read_store_finalCodewords _ hd, if_pos hi, finalCodewords_of_one_block (blockCount_cap_of_ne_v6 hne) hn]
  · exact (read_store_finalCodewords _ hd i).trans (if_neg (Nat.not_lt.mpr hi))

/-- Settles O37: ILV stores the final sequence, whose two passes hold the blocks' bytes in turn. -/
theorem ilvTwoBlocks : Obligations.IlvTwoBlocks := by
  intro s data hp hv hd hdcw
  have hread {j : Nat} (hj : j < 172) :
      Memory.read (Memory.store s.cw 0 (finalCodewords (cap .v6) data)) j = (finalCodewords (cap .v6) data)[j]? :=
    (read_store_finalCodewords _ hd j).trans (if_pos hj)
  refine ⟨_, exec_ilv_packed hp hv hd hdcw, rfl, fun i hi => ⟨?_, ?_⟩, fun i hi => ⟨?_, ?_⟩, fun i hi => ?_⟩
  · rw [hread (by omega)]
    exact (getElem?_finalCodewords_v6_data hd hi Nat.zero_lt_two).trans (List.getElem?_take_of_lt hi)
  · rw [hread (by omega)]
    exact (getElem?_finalCodewords_v6_data hd hi Nat.one_lt_two).trans List.getElem?_drop
  · rw [hread (by omega)]
    exact getElem?_finalCodewords_v6_ec hd hi Nat.zero_lt_two
  · have hidx : 137 + 2 * i = 136 + (2 * i + 1) := by omega
    rw [hread (by omega), hidx]
    exact getElem?_finalCodewords_v6_ec hd hi Nat.one_lt_two
  · exact (read_store_finalCodewords _ hd i).trans (if_neg (Nat.not_lt.mpr hi))

end Sys2Proof.Machine
end

/-! ### The matrix builder: functional placement -/

section
namespace Sys2Proof.Machine

open Sys2Proof.Claims

/-! #### Writes to the cells of a grid -/

/-- A cell that is written, with one state only, reads as that state. -/
theorem Grid.get_setAll_same {g : Grid} {ws : List (Nat × Nat × Cell)} {r c : Nat} {x : Cell}
    (hin : (Grid.get g r c).isSome = true) (hmem : (r, c, x) ∈ ws) (huniq : ∀ y, (r, c, y) ∈ ws → y = x) :
    Grid.get (Grid.setAll g ws) r c = some x := by
  induction ws generalizing g with
  | nil => cases hmem
  | cons w ws ih =>
    obtain ⟨r', c', y⟩ := w
    have hin' : (Grid.get (Grid.set g r' c' y) r c).isSome = true := by
      rw [Grid.get_set]
      split
      · rfl
      · exact hin
    by_cases hlater : (r, c, x) ∈ ws
    · exact ih hin' hlater fun z hz => huniq z (List.mem_cons_of_mem _ hz)
    · obtain ⟨rfl, rfl, rfl⟩ : r = r' ∧ c = c' ∧ x = y := by
        simpa [hlater] using hmem
      have hother : ∀ w ∈ ws, (w.1, w.2.1) ≠ (r, c) := by
        rintro ⟨_, _, z⟩ hz ⟨⟩
        exact hlater (huniq z (List.mem_cons_of_mem _ hz) ▸ hz)
      rw [Grid.setAll, Grid.get_setAll_other _ _ _ _ hother, Grid.get_set_same _ hin]

/-- What a cell of the grid reads as after writes that are known by position: the writes are those of the states `f` to
the cells where `p` holds. -/
theorem Grid.get_setAll_eq {g : Grid} {ws : List (Nat × Nat × Cell)} {f : Nat → Nat → Cell} {p : Prop} [Decidable p]
    {r c : Nat} (hin : (Grid.get g r c).isSome = true) (hws : ∀ x, (r, c, x) ∈ ws ↔ p ∧ x = f r c) :
    Grid.get (Grid.setAll g ws) r c = if p then some (f r c) else Grid.get g r c := by
  split
  · next hp => exact Grid.get_setAll_same hin ((hws _).mpr ⟨hp, rfl⟩) fun y hy => ((hws y).mp hy).2
  · next hp =>
    apply Grid.get_setAll_other
    rintro ⟨_, _, x⟩ hx ⟨⟩
    exact hp ((hws x).mp hx).1

/-! #### Functional placement, stamp by stamp -/

variable {g : Grid} {n r0 c0 r c : Nat}

theorem colour_decide (p : Prop) [Decidable p] : colour (decide p) = if p then .dark else .light := by
  by_cases hp : p <;> simp [colour, hp]

/-- The colour that the finder's loop computes at its offsets `i` and `j`, by position (R112). -/
theorem colour_finder (i j : Nat) (hr : r + 1 = r0 + i) (hc : c + 1 = c0 + j) :
    colour (decide (1 ≤ i ∧ i ≤ 7 ∧ 1 ≤ j ∧ j ≤ 7 ∧ max (dist i 4) (dist j 4) ≠ 2)) = finderCell r0 c0 r c := by
  have hdr : ((r : Int) - r0 - 3).natAbs = dist i 4 := by rw [dist]; omega
  have hdc : ((c : Int) - c0 - 3).natAbs = dist j 4 := by rw [dist]; omega
  rw [colour_decide, finderCell, hdr, hdc]
  refine ite_congr (propext ?_) (fun _ => rfl) (fun _ => rfl)
  simp only [dist]
  omega

/-- The writes of a finder marker and its separator: the cells of the grid at most one cell around the marker. -/
theorem mem_finderWrites {x : Cell} :
    (r, c, x) ∈ finderWrites n r0 c0 ↔
      (r < n ∧ c < n ∧ r0 ≤ r + 1 ∧ r ≤ r0 + 7 ∧ c0 ≤ c + 1 ∧ c ≤ c0 + 7) ∧ x = finderCell r0 c0 r c := by
  simp only [finderWrites, List.mem_flatMap, List.mem_range, List.mem_ite_nil_right, List.mem_singleton, Prod.mk.injEq]
  constructor
  · rintro ⟨i, hi, j, hj, hin, hr, hc, rfl⟩
    exact ⟨by omega, colour_finder i j (by omega) (by omega)⟩
  · rintro ⟨hin, rfl⟩
    exact ⟨r + 1 - r0, by omega, c + 1 - c0, by omega, by omega, by omega, by omega,
      (colour_finder _ _ (by omega) (by omega)).symm⟩

/-- The cell of an alignment marker centred at `(r0, c0)`: dark but for its inner ring (R114). -/
def alignmentCell (r0 c0 r c : Nat) : Cell :=
  if max ((r : Int) - r0).natAbs ((c : Int) - c0).natAbs = 1 then .light else .dark

/-- The colour that the marker's loop computes at its offsets `i` and `j`, by position (R114). -/
theorem colour_alignment (i j : Nat) (hr : r + 2 = r0 + i) (hc : c + 2 = c0 + j) :
    colour (decide (max (dist i 2) (dist j 2) ≠ 1)) = alignmentCell r0 c0 r c := by
  have hdr : ((r : Int) - r0).natAbs = dist i 2 := by rw [dist]; omega
  have hdc : ((c : Int) - c0).natAbs = dist j 2 := by rw [dist]; omega
  rw [colour_decide, alignmentCell, hdr, hdc, ite_not]

/-- The writes of an alignment marker: the cells at most two cells from its centre. -/
theorem mem_alignmentWrites {x : Cell} (hr0 : 2 ≤ r0) (hc0 : 2 ≤ c0) :
    (r, c, x) ∈ alignmentWrites r0 c0 ↔
      (r0 ≤ r + 2 ∧ r ≤ r0 + 2 ∧ c0 ≤ c + 2 ∧ c ≤ c0 + 2) ∧ x = alignmentCell r0 c0 r c := by
  simp only [alignmentWrites, List.mem_flatMap, List.mem_range, List.mem_map, Prod.mk.injEq]
  constructor
  · rintro ⟨i, hi, j, hj, hr, hc, rfl⟩
    exact ⟨by omega, colour_alignment i j (by omega) (by omega)⟩
  · rintro ⟨hin, rfl⟩
    exact ⟨r + 2 - r0, by omega, c + 2 - c0, by omega, by omega, by omega,
      colour_alignment _ _ (by omega) (by omega)⟩

/-- The timing writes: row 6 and column 6 between the finder markers. The other coordinate is even, so the colour is
that of the cell's row plus its column. -/
theorem mem_timingWrites {x : Cell} :
    (r, c, x) ∈ timingWrites n ↔
      (r = 6 ∧ 8 ≤ c ∧ c + 8 < n ∨ c = 6 ∧ 8 ≤ r ∧ r + 8 < n) ∧ x = colour ((r + c) % 2 == 0) := by
  have h6 (k : Nat) : (k + 6) % 2 = k % 2 := by omega
  simp only [timingWrites, List.mem_flatMap, List.mem_range, List.mem_cons, List.not_mem_nil, or_false, Prod.mk.injEq]
  constructor
  · rintro ⟨k, hk, ⟨rfl, rfl, rfl⟩ | ⟨rfl, rfl, rfl⟩⟩
    · exact ⟨by omega, by rw [Nat.add_comm 6, h6 (k + 8)]⟩
    · exact ⟨by omega, by rw [h6 (k + 8)]⟩
  · rintro ⟨⟨rfl, hc⟩ | ⟨rfl, hr⟩, rfl⟩
    · exact ⟨c - 8, by omega, .inl ⟨rfl, by omega, by rw [Nat.sub_add_cancel hc.1, Nat.add_comm 6, h6]⟩⟩
    · exact ⟨r - 8, by omega, .inr ⟨by omega, rfl, by rw [Nat.sub_add_cancel hr.1, h6]⟩⟩

theorem finderCell_ne_unassigned (r0 c0 : Int) (r c : Nat) : finderCell r0 c0 r c ≠ .unassigned := by
  simp only [finderCell]
  split <;> simp

/-- The three finder markers, one after the other (R113). -/
theorem finderGrid_eq (n : Nat) :
    finderGrid n = ((Grid.alloc n).setAll (finderWrites n 0 0) |>.setAll (finderWrites n 0 (n - 7))
      |>.setAll (finderWrites n (n - 7) 0)) := rfl

theorem isSquare_finderGrid (n : Nat) : Grid.isSquare (finderGrid n) n = true := by
  simp [finderGrid_eq]

/-- The corners are apart, so each holds its own finder marker, and the rest of the grid is U. -/
theorem get_finderGrid (hn : 17 ≤ n) (hr : r < n) (hc : c < n) :
    Grid.get (finderGrid n) r c = some (
      if r ≤ 7 ∧ c ≤ 7 then finderCell 0 0 r c
      else if r ≤ 7 ∧ n - 8 ≤ c then finderCell 0 ((n : Int) - 7) r c
      else if n - 8 ≤ r ∧ c ≤ 7 then finderCell ((n : Int) - 7) 0 r c
      else .unassigned) := by
  have hin {g : Grid} (hg : Grid.isSquare g n = true) : (Grid.get g r c).isSome = true :=
    (Grid.get_isSome hg r c).mpr ⟨hr, hc⟩
  have hcast : ((n - 7 : Nat) : Int) = (n : Int) - 7 := by omega
  rw [finderGrid_eq, Grid.get_setAll_eq (hin (by simp)) fun x => mem_finderWrites,
    Grid.get_setAll_eq (hin (by simp)) fun x => mem_finderWrites,
    Grid.get_setAll_eq (hin (by simp)) fun x => mem_finderWrites, Grid.get_alloc,
    if_pos (And.intro hr hc), hcast]
  split
  · rw [if_neg (by omega), if_neg (by omega), if_pos (by omega)]
    rfl
  split
  · rw [if_neg (by omega), if_pos (by omega)]
    rfl
  split
  · rw [if_pos (by omega)]
    rfl
  · rw [if_neg (by omega), if_neg (by omega), if_neg (by omega)]

/-- Whatever the corner, a finder marker has assigned the cell. -/
theorem get_finderGrid_corner (hn : 17 ≤ n) (hr : r < n) (hc : c < n)
    (hcorner : r ≤ 7 ∧ c ≤ 7 ∨ r ≤ 7 ∧ n - 8 ≤ c ∨ n - 8 ≤ r ∧ c ≤ 7) :
    Grid.get (finderGrid n) r c ≠ some .unassigned := by
  rw [get_finderGrid hn hr hc, ne_eq, Option.some.injEq]
  split
  · exact finderCell_ne_unassigned _ _ r c
  split
  · exact finderCell_ne_unassigned _ _ r c
  split
  · exact finderCell_ne_unassigned _ _ r c
  · omega

theorem placeAlignment_skip {rc : Nat × Nat} (h : Grid.get g rc.1 rc.2 ≠ some .unassigned) :
    placeAlignment g rc = g :=
  if_neg h

/-- With the centres 6 and `n − 7`, the three candidates in the finder markers are skipped (R115). -/
theorem alignedGrid_two_centres (hn : 25 ≤ n) :
    alignedGrid n [6, n - 7] = (finderGrid n).setAll (alignmentWrites (n - 7) (n - 7)) := by
  have hskip {r c : Nat} (hr : r < n) (hc : c < n) (hcorner : r ≤ 7 ∧ c ≤ 7 ∨ r ≤ 7 ∧ n - 8 ≤ c ∨ n - 8 ≤ r ∧ c ≤ 7) :
      placeAlignment (finderGrid n) (r, c) = finderGrid n :=
    placeAlignment_skip (get_finderGrid_corner (by omega) hr hc hcorner)
  have hfree : Grid.get (finderGrid n) (n - 7) (n - 7) = some .unassigned := by
    rw [get_finderGrid (by omega) (by omega) (by omega), if_neg (by omega), if_neg (by omega), if_neg (by omega)]
  calc alignedGrid n [6, n - 7]
    _ = [(6, 6), (6, n - 7), (n - 7, 6), (n - 7, n - 7)].foldl placeAlignment (finderGrid n) := rfl
    _ = placeAlignment (finderGrid n) (n - 7, n - 7) := by
      simp only [List.foldl_cons, List.foldl_nil]
      rw [hskip (by omega) (by omega) (by omega), hskip (by omega) (by omega) (by omega),
        hskip (by omega) (by omega) (by omega)]
    _ = _ := if_pos hfree

/-! #### Functional placement of a version (R111 to R119) -/

/-- The sides of R16: odd, at least 21, and at least 25 from version 2 on. -/
theorem size_facts (v : Version) : 21 ≤ v.size ∧ v.size % 2 = 1 ∧ (v ≠ .v1 → 25 ≤ v.size) := by
  cases v <;> decide

theorem alignmentCenters_of_ne_v1 {v : Version} (hv : v ≠ .v1) : (cap v).alignmentCenters = [6, v.size - 7] := by
  cases v with
  | v1 => exact absurd rfl hv
  | v2 | v3 | v4 | v5 | v6 => rfl

variable {v : Version}

/-- The alignment stage: versions from 2 on have the one marker centred at `(size − 7, size − 7)`. -/
theorem alignedGrid_version (v : Version) :
    alignedGrid v.size (cap v).alignmentCenters =
      if v ≠ .v1 then (finderGrid v.size).setAll (alignmentWrites (v.size - 7) (v.size - 7))
      else finderGrid v.size := by
  obtain ⟨-, -, h25⟩ := size_facts v
  split
  · next hv => rw [alignmentCenters_of_ne_v1 hv, alignedGrid_two_centres (h25 hv)]
  · next hv =>
    rw [Decidable.not_not.mp hv]
    rfl

theorem isSquare_alignedGrid (v : Version) :
    Grid.isSquare (alignedGrid v.size (cap v).alignmentCenters) v.size = true := by
  rw [alignedGrid_version]
  split <;> simp [isSquare_finderGrid]

theorem get_alignedGrid (hr : r < v.size) (hc : c < v.size) :
    Grid.get (alignedGrid v.size (cap v).alignmentCenters) r c =
      if v ≠ .v1 ∧ v.size - 9 ≤ r ∧ r ≤ v.size - 5 ∧ v.size - 9 ≤ c ∧ c ≤ v.size - 5 then
        some (alignmentCell (v.size - 7) (v.size - 7) r c)
      else Grid.get (finderGrid v.size) r c := by
  obtain ⟨h21, -, -⟩ := size_facts v
  have hin := (Grid.get_isSome (isSquare_finderGrid v.size) r c).mpr ⟨hr, hc⟩
  rw [alignedGrid_version]
  by_cases hv : v = .v1
  · rw [if_neg (Decidable.not_not.mpr hv), if_neg fun h => h.1 hv]
  · rw [if_pos hv, Grid.get_setAll_eq hin fun x => mem_alignmentWrites (by omega) (by omega)]
    refine ite_congr (propext ?_) (fun _ => rfl) (fun _ => rfl)
    simp only [ne_eq, hv, not_false_eq_true, true_and]
    omega

/-- The grid after MFUNC by its last stages: the dark module, the timing patterns, what the stages before left. -/
theorem get_funcGridOf_stages (hr : r < v.size) (hc : c < v.size) :
    Grid.get (funcGridOf v) r c =
      if r = v.size - 8 ∧ c = 8 then some .dark
      else if r = 6 ∧ 8 ≤ c ∧ c + 8 < v.size ∨ c = 6 ∧ 8 ≤ r ∧ r + 8 < v.size then
        some (colour ((r + c) % 2 == 0))
      else Grid.get (alignedGrid v.size (cap v).alignmentCenters) r c := by
  obtain ⟨h21, -, -⟩ := size_facts v
  have hin := (Grid.get_isSome (isSquare_alignedGrid v) r c).mpr ⟨hr, hc⟩
  have hsquare :
      ((alignedGrid v.size (cap v).alignmentCenters).setAll (timingWrites v.size)).isSquare v.size = true := by
    rw [Grid.isSquare_setAll, isSquare_alignedGrid]
  have hdark := (Grid.get_isSome hsquare (v.size - 8) 8).mpr ⟨by omega, by omega⟩
  rw [funcGridOf, functionalGrid, Grid.get_set, hdark,
    Grid.get_setAll_eq (f := fun r c => colour ((r + c) % 2 == 0)) hin fun x => mem_timingWrites]
  simp only [and_true]

/-- Every cell of the grid after MFUNC is the functional pattern at its position: the stage that wrote it last is the
clause of its position, as the patterns do not overlap. -/
theorem get_funcGridOf_inside (hr : r < v.size) (hc : c < v.size) :
    Grid.get (funcGridOf v) r c = some (functionalCell v r c) := by
  obtain ⟨h21, -, h25⟩ := size_facts v
  rw [get_funcGridOf_stages hr hc, get_alignedGrid hr hc, get_finderGrid (by omega) hr hc]
  simp only [functionalCell]
  split
  · -- the dark module
    rw [if_neg (by omega), if_neg (by omega), if_neg (by omega), if_neg (by omega), if_neg (by omega),
      if_neg (by omega)]
  split
  · -- the timing patterns
    next htiming =>
    have halign : ¬(v ≠ .v1 ∧ v.size - 9 ≤ r ∧ r ≤ v.size - 5 ∧ v.size - 9 ≤ c ∧ c ≤ v.size - 5) := fun h => by
      have := h25 h.1
      omega
    rw [if_neg (by omega), if_neg (by omega), if_neg (by omega), if_neg halign]
    obtain ⟨rfl, -⟩ | ⟨rfl, h8, -⟩ := htiming
    · rw [if_pos rfl, show (6 + c) % 2 = c % 2 by omega]
      exact congrArg some (colour_decide _)
    · rw [if_neg (by omega), if_pos rfl, show (r + 6) % 2 = r % 2 by omega]
      exact congrArg some (colour_decide _)
  split
  · -- the alignment marker
    next halign =>
    have := h25 halign.1
    rw [if_neg (by omega), if_neg (by omega), if_neg (by omega)]
    rfl
  split
  · -- the finder marker at the top left
    rfl
  split
  · -- at the top right
    rfl
  split
  · -- at the bottom left
    rfl
  · -- no pattern
    rw [if_neg (by omega), if_neg (by omega)]

theorem get_funcGridOf (v : Version) (r c : Nat) :
    Grid.get (funcGridOf v) r c = if r < v.size ∧ c < v.size then some (functionalCell v r c) else none := by
  split
  · next h => exact get_funcGridOf_inside h.1 h.2
  · next h => exact Option.not_isSome_iff_eq_none.mp (mt (Grid.get_isSome (isSquare_funcGridOf v) r c).mp h)

/-- Settles O38: the body writes the functional grid, whose cells are the stamps by position. -/
theorem mfuncPlacesPatterns : Obligations.MfuncPlacesPatterns := by
  intro s v hp hv
  have hexec : exec .mfunc s = mfuncBody s := by rw [exec_mfunc, guarded_legal (by rw [hp]; rfl)]
  exact ⟨_, hexec.trans (mfuncBody_eq hv), rfl, get_funcGridOf v⟩

end Sys2Proof.Machine
end

/-! ### The matrix builder: format information -/

section
namespace Sys2Proof.Machine

open Sys2Proof.Claims

variable {v : Version} {g : Grid} {r c : Nat}

/-! #### The format cells (R122 to R124) -/

/-- The table of the first copy's cells is the rule of R122, bit by bit. -/
theorem formatCopy1_eq_map : formatCopy1 = (List.range 15).map formatCell1 := by decide

theorem formatCopy2_eq_map (v : Version) : formatCopy2 v.size = (List.range 15).map (formatCell2 v.size) := by
  cases v <;> decide

theorem nodup_formatCopies (v : Version) : (formatCopy1 ++ formatCopy2 v.size).Nodup := by
  cases v <;> decide

/-- The format cells are cells of the grid that functional placement leaves U. -/
theorem functionalCell_of_mem_formatCopies (v : Version) :
    ∀ rc ∈ formatCopy1 ++ formatCopy2 v.size,
      rc.1 < v.size ∧ rc.2 < v.size ∧ functionalCell v rc.1 rc.2 = .unassigned := by
  cases v <;> decide

/-- Settles O41: the cells are listed, and the functional grid is known by position. -/
theorem formatCellsAreFree : Obligations.FormatCellsAreFree := by
  refine fun v => ⟨nodup_formatCopies v, fun rc hrc => ?_⟩
  obtain ⟨hr, hc, hfree⟩ := functionalCell_of_mem_formatCopies v rc hrc
  rw [get_funcGridOf_inside hr hc, hfree]

/-! #### Format placement (R124) -/

/-- The colour of bit `i` of FORMAT. -/
def formatColour (i : Nat) : Cell :=
  colour (Config.default.format.getLsbD i)

theorem formatColours_eq_map : formatColours = (List.range 15).map formatColour := by decide

theorem mem_formatWrites {n : Nat} {x : Cell} :
    (r, c, x) ∈ formatWrites Config.default.format n ↔
      ∃ i < 15, (formatCell1 i = (r, c) ∨ formatCell2 n i = (r, c)) ∧ x = formatColour i := by
  simp only [formatWrites, List.mem_flatMap, List.mem_range, List.mem_cons, List.not_mem_nil, or_false, Prod.ext_iff,
    formatColour]
  refine exists_congr fun i => and_congr_right fun _ => ?_
  grind

theorem mem_formatCopies {rc : Nat × Nat} :
    rc ∈ formatCopy1 ++ formatCopy2 v.size ↔ ∃ i < 15, formatCell1 i = rc ∨ formatCell2 v.size i = rc := by
  simp only [formatCopy1_eq_map, formatCopy2_eq_map, List.mem_append, List.mem_map, List.mem_range, ← exists_or,
    ← and_or_left]

theorem formatCell1_injective : ∀ i < 15, ∀ j < 15, formatCell1 i = formatCell1 j → i = j := by decide

theorem formatCell2_injective {n i j : Nat} (hn : 17 ≤ n) (hi : i < 15) (hj : j < 15)
    (h : formatCell2 n i = formatCell2 n j) : i = j := by
  unfold formatCell2 at h
  split at h <;> split at h <;> rw [Prod.mk.injEq] at h <;> omega

theorem formatCell1_ne_formatCell2 (v : Version) {i j : Nat} (hi : i < 15) (hj : j < 15) :
    formatCell1 i ≠ formatCell2 v.size j := by
  have hnodup := nodup_formatCopies v
  rw [formatCopy1_eq_map, formatCopy2_eq_map, List.nodup_append] at hnodup
  obtain ⟨-, -, hapart⟩ := hnodup
  exact hapart _ (List.mem_map_of_mem (List.mem_range.mpr hi)) _ (List.mem_map_of_mem (List.mem_range.mpr hj))

/-- A format cell belongs to one bit only. -/
theorem formatCell_unique {i j : Nat} {rc : Nat × Nat} (hi : i < 15) (hj : j < 15)
    (hirc : formatCell1 i = rc ∨ formatCell2 v.size i = rc) (hjrc : formatCell1 j = rc ∨ formatCell2 v.size j = rc) :
    i = j := by
  have h21 := (size_facts v).1
  obtain rfl | rfl := hirc
  · obtain h | h := hjrc
    · exact formatCell1_injective i hi j hj h.symm
    · exact absurd h.symm (formatCell1_ne_formatCell2 v hi hj)
  · obtain h | h := hjrc
    · exact absurd h (formatCell1_ne_formatCell2 v hj hi)
    · exact formatCell2_injective (by omega) hi hj h.symm

/-- Both cells of bit `i` take its colour. -/
theorem get_placeFormat_cell (hg : Grid.isSquare g v.size = true) {i : Nat} (hi : i < 15) {rc : Nat × Nat}
    (hrc : formatCell1 i = rc ∨ formatCell2 v.size i = rc) :
    Grid.get (placeFormat Config.default.format v.size g) rc.1 rc.2 = some (formatColour i) := by
  obtain ⟨hr, hc, -⟩ := functionalCell_of_mem_formatCopies v rc (mem_formatCopies.mpr ⟨i, hi, hrc⟩)
  refine Grid.get_setAll_same ((Grid.get_isSome hg _ _).mpr ⟨hr, hc⟩) (mem_formatWrites.mpr ⟨i, hi, hrc, rfl⟩)
    fun y hy => ?_
  obtain ⟨j, hj, hjrc, rfl⟩ := mem_formatWrites.mp hy
  rw [formatCell_unique hi hj hrc hjrc]

theorem get_placeFormat_other (g : Grid) (h : (r, c) ∉ formatCopy1 ++ formatCopy2 v.size) :
    Grid.get (placeFormat Config.default.format v.size g) r c = Grid.get g r c := by
  apply Grid.get_setAll_other
  rintro ⟨_, _, x⟩ hx ⟨⟩
  obtain ⟨i, hi, hrc, -⟩ := mem_formatWrites.mp hx
  exact h (mem_formatCopies.mpr ⟨i, hi, hrc⟩)

theorem map_get_formatCopies (hg : Grid.isSquare g v.size = true) :
    formatCopy1.map (fun rc => Grid.get (placeFormat Config.default.format v.size g) rc.1 rc.2)
        = formatColours.map some ∧
      (formatCopy2 v.size).map (fun rc => Grid.get (placeFormat Config.default.format v.size g) rc.1 rc.2)
        = formatColours.map some := by
  rw [formatCopy1_eq_map, formatCopy2_eq_map, formatColours_eq_map]
  simp only [List.map_map, List.map_inj_left, Function.comp_apply, List.mem_range]
  exact ⟨fun i hi => get_placeFormat_cell hg hi (.inl rfl), fun i hi => get_placeFormat_cell hg hi (.inr rfl)⟩

/-- Settles O42: the body writes the format cells, two for each bit, and no other. -/
theorem mfmtWritesBothCopies : Obligations.MfmtWritesBothCopies := by
  intro s v hp hv hg
  have hexec : exec .mfmt s
      = .next { s with grid := placeFormat Config.default.format v.size s.grid, phase := .fmt } := by
    rw [exec_mfmt, guarded_legal (by rw [hp]; rfl), mfmtBody_eq hv hg]
  obtain ⟨hcopy1, hcopy2⟩ := map_get_formatCopies hg
  have hother (r c : Nat) (h : (r, c) ∉ formatCopy1 ++ formatCopy2 v.size) := get_placeFormat_other s.grid h
  generalize placeFormat Config.default.format v.size s.grid = g at hexec hcopy1 hcopy2 hother
  exact ⟨_, hexec, rfl, hcopy1, hcopy2, hother⟩

/-! #### The free cells and the format value (R120, R121, R131) -/

/-- R131: format placement leaves the cells that data placement fills. -/
theorem unassignedCount_fmtGridOf (v : Version) : unassignedCount (fmtGridOf v) = v.dataCells := by
  cases v <;> decide +kernel

/-- R120: functional placement leaves the thirty format cells besides. -/
theorem unassignedCount_funcGridOf (v : Version) : unassignedCount (funcGridOf v) = v.dataCells + 30 := by
  cases v <;> decide +kernel

/-- Settles O39: the counts are those of R131, version by version. -/
theorem unassignedCellCounts : Obligations.UnassignedCellCounts := by
  simp only [Obligations.UnassignedCellCounts, unassignedCount_fmtGridOf, unassignedCount_funcGridOf]
  decide

/-- Settles O40: the remainder and the value, computed. -/
theorem formatValueDerivation : Obligations.FormatValueDerivation :=
  ⟨by decide, by decide, by decide, by decide⟩

end Sys2Proof.Machine
end

/-! ### The matrix builder: the traversal -/

section
namespace Sys2Proof.Machine

open Sys2Proof.Claims

/-! #### Lists that are pieces of equal length in a row -/

section
variable {α : Type} {m n : Nat} {f : Nat → List α}

theorem length_flatMap_range (hf : ∀ i, (f i).length = m) (n : Nat) :
    ((List.range n).flatMap f).length = m * n := by
  induction n with
  | zero => rfl
  | succ n ih =>
    rw [List.range_succ, List.flatMap_append, List.flatMap_singleton, List.length_append, ih, hf, Nat.mul_succ]

/-- Pieces without repeats that share no entry have no repeats in a row. -/
theorem nodup_flatMap_range (hpiece : ∀ i < n, (f i).Nodup)
    (hapart : ∀ i j, i < j → j < n → ∀ x ∈ f i, ∀ y ∈ f j, x ≠ y) : ((List.range n).flatMap f).Nodup := by
  refine List.pairwise_flatMap.mpr ⟨fun i hi => hpiece i (List.mem_range.mp hi), ?_⟩
  exact List.pairwise_lt_range.imp_of_mem fun _ hj hij => hapart _ _ hij (List.mem_range.mp hj)

/-- Index `m * i + k` of the pieces in a row is index `k` of piece `i`. -/
theorem getElem?_flatMap_range_of_length (hf : ∀ i, (f i).length = m) {i k : Nat} (hi : i < n) (hk : k < m) :
    ((List.range n).flatMap f)[m * i + k]? = (f i)[k]? := by
  induction n with
  | zero => omega
  | succ n ih =>
    rw [List.range_succ, List.flatMap_append, List.flatMap_singleton]
    obtain hlt | rfl := Nat.lt_succ_iff_lt_or_eq.mp hi
    · have hin : m * i + k < m * n := calc
        m * i + k < m * (i + 1) := Nat.add_lt_add_left hk _
        _ ≤ m * n := Nat.mul_le_mul_left m hlt
      rw [List.getElem?_append_left (by rwa [length_flatMap_range hf]), ih hlt]
    · rw [List.getElem?_append_right (by rw [length_flatMap_range hf]; omega), length_flatMap_range hf,
        Nat.add_sub_cancel_left]

end

/-! #### The zigzag, strip by strip (R125) -/

variable {n q t b r c : Nat}

theorem length_strip (n right : Nat) (up : Bool) : (strip n right up).length = 2 * n :=
  length_flatMap_range (f := fun t => [(stripRow n up t, right), (stripRow n up t, right - 1)]) (fun _ => rfl) n

/-- The cell at place `2 * t + b` of a strip: the right cell of row `t` on its way, then the left one. -/
theorem getElem?_strip (right : Nat) (up : Bool) (ht : t < n) (hb : b < 2) :
    (strip n right up)[2 * t + b]? = some (stripRow n up t, right - b) := by
  have hlen (t : Nat) : [(stripRow n up t, right), (stripRow n up t, right - 1)].length = 2 := rfl
  rw [strip, getElem?_flatMap_range_of_length hlen ht hb]
  match b with
  | 0 | 1 => rfl

theorem mem_strip {right : Nat} {up : Bool} :
    (r, c) ∈ strip n right up ↔ r < n ∧ (c = right ∨ c = right - 1) := by
  simp only [strip, List.mem_flatMap, List.mem_range, List.mem_cons, List.not_mem_nil, or_false, Prod.mk.injEq,
    ← and_or_left, stripRow]
  constructor
  · rintro ⟨t, ht, rfl, hc⟩
    exact ⟨by split <;> omega, hc⟩
  · rintro ⟨hr, hc⟩
    exact ⟨if up then n - 1 - r else r, by split <;> omega, by split <;> omega, hc⟩

theorem stripRow_injective {up : Bool} {t' : Nat} (ht : t < n) (ht' : t' < n)
    (h : stripRow n up t = stripRow n up t') : t = t' := by
  unfold stripRow at h
  split at h <;> omega

theorem nodup_strip (up : Bool) {right : Nat} (hright : 1 ≤ right) : (strip n right up).Nodup := by
  refine nodup_flatMap_range (fun t ht => ?_) fun t t' hlt ht' x hx y hy h => ?_
  · simp only [List.nodup_cons, List.mem_singleton, List.not_mem_nil, not_false_eq_true, List.nodup_nil, and_true,
      Prod.mk.injEq, true_and]
    omega
  · have hrow {z : Nat × Nat} {t : Nat} (hz : z ∈ [(stripRow n up t, right), (stripRow n up t, right - 1)]) :
        z.1 = stripRow n up t := by
      obtain rfl | hz := List.mem_cons.mp hz
      · rfl
      · rw [List.mem_singleton.mp hz]
    have hsame : stripRow n up t = stripRow n up t' := by rw [← hrow hx, ← hrow hy, h]
    exact absurd (stripRow_injective (Nat.lt_trans hlt ht') ht' hsame) (Nat.ne_of_lt hlt)

/-- The right column of strip `q`: one further left from column 6 on. -/
def stripColumn (n q : Nat) : Nat :=
  if n - 1 - 2 * q ≤ 6 then n - 1 - 2 * q - 1 else n - 1 - 2 * q

theorem zigzagCell_eq (n q t b : Nat) :
    zigzagCell n q t b = (stripRow n (decide (q % 2 = 0)) t, stripColumn n q - b) := by
  simp [zigzagCell, stripRow, stripColumn]

/-- Strip number `q` of the zigzag. -/
def zigzagStrip (n q : Nat) : List (Nat × Nat) :=
  strip n (stripColumn n q) (decide (q % 2 = 0))

theorem length_zigzagStrip (n q : Nat) : (zigzagStrip n q).length = 2 * n :=
  length_strip ..

/-- The step over column 6: the loop enters strip `q + 1` two columns left of strip `q`. -/
theorem skipTiming_stripColumn (hodd : n % 2 = 1) (q : Nat) :
    skipTiming (stripColumn n q - 2) = stripColumn n (q + 1) := by
  unfold skipTiming stripColumn
  split <;> split <;> split <;> omega

/-- The loop ends where the strips do, at the left edge. -/
theorem one_le_iff_of_skipTiming (hn : 7 ≤ n) (hodd : n % 2 = 1) {right : Nat}
    (hright : skipTiming right = stripColumn n q) : 1 ≤ right ↔ q < (n - 1) / 2 := by
  unfold skipTiming stripColumn at hright
  split at hright <;> split at hright <;> omega

/-- The loop that enters strip `q` gives the `k` strips from there to the left edge. -/
theorem strips_eq_flatMap (hn : 7 ≤ n) (hodd : n % 2 = 1) {k fuel right : Nat} (hk : q + k = (n - 1) / 2)
    (hfuel : k ≤ fuel) (hright : skipTiming right = stripColumn n q) :
    strips n fuel right (decide (q % 2 = 0)) = (List.range k).flatMap fun j => zigzagStrip n (q + j) := by
  induction k generalizing q fuel right with
  | zero =>
    have hedge : ¬1 ≤ right := by
      rw [one_le_iff_of_skipTiming hn hodd hright]
      omega
    cases fuel with
    | zero => rfl
    | succ fuel => exact if_neg hedge
  | succ k ih =>
    obtain ⟨fuel, rfl⟩ : ∃ m, fuel = m + 1 := ⟨fuel - 1, by omega⟩
    have hinside : 1 ≤ right := (one_le_iff_of_skipTiming hn hodd hright).mpr (by omega)
    have hturn : (!decide (q % 2 = 0)) = decide ((q + 1) % 2 = 0) := by
      rw [← decide_not, decide_eq_decide]
      omega
    have hshift (j : Nat) : q + 1 + j = q + (j + 1) := by omega
    rw [strips, if_pos hinside, hright, hturn, ih (by omega) (by omega) (skipTiming_stripColumn hodd q),
      List.range_succ_eq_map, List.flatMap_cons, List.flatMap_map]
    simp only [hshift]
    rfl

theorem traversal_eq_flatMap (hn : 7 ≤ n) (hodd : n % 2 = 1) :
    traversal n = (List.range ((n - 1) / 2)).flatMap (zigzagStrip n) := by
  have hright : skipTiming (n - 1) = stripColumn n 0 := by
    unfold skipTiming stripColumn
    split <;> split <;> omega
  have h := strips_eq_flatMap hn hodd (Nat.zero_add _) (fuel := n) (by omega) hright
  simp only [Nat.zero_add] at h
  exact h

theorem length_traversal (hn : 7 ≤ n) (hodd : n % 2 = 1) : (traversal n).length = 2 * n * ((n - 1) / 2) := by
  rw [traversal_eq_flatMap hn hodd, length_flatMap_range (length_zigzagStrip n)]

theorem getElem?_traversal (hn : 7 ≤ n) (hodd : n % 2 = 1) (hq : q < (n - 1) / 2) (ht : t < n) (hb : b < 2) :
    (traversal n)[2 * n * q + 2 * t + b]? = some (zigzagCell n q t b) := by
  rw [traversal_eq_flatMap hn hodd, Nat.add_assoc,
    getElem?_flatMap_range_of_length (length_zigzagStrip n) hq (by omega), zigzagStrip, getElem?_strip _ _ ht hb,
    zigzagCell_eq]

/-- The columns of the strips are the columns of the grid but 6. -/
theorem mem_traversal (hn : 7 ≤ n) (hodd : n % 2 = 1) : (r, c) ∈ traversal n ↔ r < n ∧ c < n ∧ c ≠ 6 := by
  simp only [traversal_eq_flatMap hn hodd, List.mem_flatMap, List.mem_range, zigzagStrip, mem_strip, stripColumn]
  constructor
  · rintro ⟨q, hq, hr, hc⟩
    split at hc <;> exact ⟨hr, by omega⟩
  · rintro ⟨hr, hc, h6⟩
    refine ⟨if c < 6 then (n - 2 - c) / 2 else (n - 1 - c) / 2, ?_, hr, ?_⟩
    · split <;> omega
    · split <;> split <;> omega

/-- No cell comes twice: the cells of a strip are apart by row or by column, and two strips share no column. -/
theorem nodup_traversal (hn : 7 ≤ n) (hodd : n % 2 = 1) : (traversal n).Nodup := by
  rw [traversal_eq_flatMap hn hodd]
  refine nodup_flatMap_range (fun q hq => nodup_strip _ ?_) ?_
  · unfold stripColumn
    split <;> omega
  · rintro q q' hlt hq' ⟨r, c⟩ hrc ⟨r', c'⟩ hrc' h
    obtain ⟨-, hc⟩ := mem_strip.mp hrc
    obtain ⟨-, hc'⟩ := mem_strip.mp hrc'
    obtain ⟨-, rfl⟩ := Prod.mk.inj h
    unfold stripColumn at hc hc'
    split at hc <;> split at hc' <;> omega

/-- Settles O43: strip by strip, for every odd side. -/
theorem traversalVisitsEachCellOnce : Obligations.TraversalVisitsEachCellOnce := by
  intro v
  obtain ⟨h21, hodd, -⟩ := size_facts v
  have hn : 7 ≤ v.size := by omega
  exact ⟨nodup_traversal hn hodd, fun r c => mem_traversal hn hodd, length_traversal hn hodd,
    fun q t b => getElem?_traversal hn hodd⟩

end Sys2Proof.Machine
end

/-! ### The matrix builder: data placement and the finished grid -/

section
namespace Sys2Proof.Machine

open Sys2Proof.Claims

variable {v : Version} {g : Grid} {cells : List (Nat × Nat)} {r c : Nat}

/-! #### Data placement (R126 to R129) -/

theorem colour_ne_unassigned (b : Bool) : colour b ≠ .unassigned := by
  cases b <;> decide

theorem freeCells_cons (g : Grid) (rc : Nat × Nat) (cells : List (Nat × Nat)) :
    freeCells g (rc :: cells) =
      if Grid.get g rc.1 rc.2 = some .unassigned then rc :: freeCells g cells else freeCells g cells := by
  simp [freeCells, List.filter_cons]

theorem mem_freeCells {rc : Nat × Nat} :
    rc ∈ freeCells g cells ↔ rc ∈ cells ∧ Grid.get g rc.1 rc.2 = some .unassigned := by
  simp [freeCells]

/-- A write to a cell that is not visited again leaves the free cells as they are. -/
theorem freeCells_set (g : Grid) (x : Cell) (h : (r, c) ∉ cells) :
    freeCells (Grid.set g r c x) cells = freeCells g cells :=
  List.filter_congr fun rc hrc => by rw [Grid.get_set_other g x (r' := rc.1) (c' := rc.2) fun he => h (he ▸ hrc)]

/-- Data placement writes the visited cells only. -/
theorem get_placeBits_of_notMem (bits : List Bool) (g : Grid) (h : (r, c) ∉ cells) :
    Grid.get (placeBits cells bits g) r c = Grid.get g r c := by
  induction cells generalizing bits g with
  | nil => rfl
  | cons rc cells ih =>
    obtain ⟨r', c'⟩ := rc
    obtain ⟨hne, htail⟩ := not_or.mp (mt List.mem_cons.mpr h)
    rw [placeBits]
    split
    · rw [ih _ _ htail, Grid.get_set_other g _ hne]
    · exact ih _ _ htail

/-- A cell that is not free keeps its state: it is not visited, or assigned already. -/
theorem get_placeBits_of_notMem_freeCells (bits : List Bool) (h : (r, c) ∉ freeCells g cells) :
    Grid.get (placeBits cells bits g) r c = Grid.get g r c := by
  by_cases hmem : (r, c) ∈ cells
  · exact get_placeBits_assigned cells bits g r c fun hU => h (mem_freeCells.mpr ⟨hmem, hU⟩)
  · exact get_placeBits_of_notMem bits g hmem

/-- Where no cell comes twice, the `k`-th free cell takes bit `k`, xor the mask. -/
theorem get_placeBits_freeCell (hnodup : cells.Nodup) (bits : List Bool) (g : Grid) {k : Nat} {rc : Nat × Nat}
    (hk : (freeCells g cells)[k]? = some rc) :
    Grid.get (placeBits cells bits g) rc.1 rc.2 = some (colour (xor (bits.getD k false) (mask rc.1 rc.2))) := by
  induction cells generalizing bits g k with
  | nil => cases hk
  | cons head cells ih =>
    obtain ⟨r', c'⟩ := head
    obtain ⟨hhead, hnodup⟩ := List.nodup_cons.mp hnodup
    rw [freeCells_cons] at hk
    rw [placeBits]
    split at hk
    · next hfree =>
      rw [if_pos hfree]
      cases k with
      | zero =>
        obtain rfl : (r', c') = rc := Option.some.inj hk
        rw [get_placeBits_of_notMem _ _ hhead, Grid.get_set_same _ (by rw [hfree]; rfl)]
        cases bits <;> rfl
      | succ k =>
        rw [← freeCells_set g _ hhead] at hk
        rw [ih hnodup _ _ hk]
        cases bits <;> rfl
    · next hfree =>
      rw [if_neg hfree]
      exact ih hnodup bits g hk

/-- The bits of the codewords in a row, read by number. -/
theorem getD_flatMap_bitsOfByte (codewords : List Byte) (k : Nat) :
    (codewords.flatMap bitsOfByte).getD k false = codewordBit codewords k := by
  induction codewords generalizing k with
  | nil => simp [codewordBit]
  | cons w ws ih =>
    rw [List.flatMap_cons]
    have hlen : (bitsOfByte w).length = 8 := rfl
    by_cases hk : k < 8
    · rw [List.getD_eq_getElem?_getD, List.getElem?_append_left (by omega)]
      match k, hk with
      | 0, _ | 1, _ | 2, _ | 3, _ | 4, _ | 5, _ | 6, _ | 7, _ => rfl
    · obtain ⟨j, rfl⟩ := Nat.exists_eq_add_of_le (Nat.le_of_not_lt hk)
      rw [List.getD_eq_getElem?_getD, List.getElem?_append_right (by omega), hlen, Nat.add_sub_cancel_left,
        ← List.getD_eq_getElem?_getD, ih, codewordBit, codewordBit,
        Nat.add_div_left j (by decide), Nat.add_mod_left, List.getD_cons_succ]

theorem colour_xor_mask (codewords : List Byte) (k : Nat) (rc : Nat × Nat) :
    colour (xor (codewordBit codewords k) (mask rc.1 rc.2)) = dataCell codewords k rc := rfl

/-- The traversal's `k`-th free cell takes bit `k` of the codewords, xor the mask. -/
theorem get_placeData_freeCell (codewords : List Byte) {k : Nat} {rc : Nat × Nat}
    (hk : (freeCells g (traversal v.size))[k]? = some rc) :
    Grid.get (placeData v.size codewords g) rc.1 rc.2 = some (dataCell codewords k rc) := by
  obtain ⟨h21, hodd, -⟩ := size_facts v
  rw [placeData, get_placeBits_freeCell (nodup_traversal (by omega) hodd) _ _ hk, getD_flatMap_bitsOfByte,
    colour_xor_mask]

/-- Settles O44: the body runs data placement over the traversal, which visits no cell twice. -/
theorem mdataPlacesMaskedBits : Obligations.MdataPlacesMaskedBits := by
  intro s v codewords hp hv hlen hcw hg
  have hload : Memory.load s.cw 0 (cap v).totalCodewords = some codewords := hlen ▸ load_of_holds hcw
  have hexec : exec .mdata s = mdataBody s := by rw [exec_mdata, guarded_legal (by rw [hp]; rfl)]
  exact ⟨_, hexec.trans (mdataBody_eq hv hload hg), rfl, fun k rc hk => get_placeData_freeCell codewords hk,
    fun r c h => get_placeBits_of_notMem_freeCells _ h⟩

/-! #### The finished grid -/

theorem State.Inv.exists_symbolOf_eq {s : State} (h : s.Inv) (hp : s.phase = .done) (hv : s.ver = some v) :
    ∃ input, s.grid = symbolOf v input := by
  obtain ⟨⟨input, hcall⟩, -⟩ := h
  have hgrid := (hcall.stage v hv).grid_eq
  rw [hp] at hgrid
  exact ⟨input, hgrid⟩

theorem get_fmtGridOf_other (h : (r, c) ∉ formatCopy1 ++ formatCopy2 v.size) :
    Grid.get (fmtGridOf v) r c = Grid.get (funcGridOf v) r c :=
  get_placeFormat_other _ h

/-- What the grid holds before data placement stands in the symbol. -/
theorem get_symbolOf_assigned (input : List Byte) (h : Grid.get (fmtGridOf v) r c ≠ some .unassigned) :
    Grid.get (symbolOf v input) r c = Grid.get (fmtGridOf v) r c :=
  get_placeBits_assigned _ _ _ _ _ h

/-- Column 6 is timing and finder cells: no cell of it is left to data placement. -/
theorem functionalCell_column_six (v : Version) (r : Nat) : functionalCell v r 6 ≠ .unassigned := by
  have h21 := (size_facts v).1
  by_cases hhead : r ≤ 7
  · rw [functionalCell, if_pos ⟨hhead, by decide⟩]
    exact finderCell_ne_unassigned _ _ r 6
  by_cases htail : v.size - 8 ≤ r
  · rw [functionalCell, if_neg (by omega), if_neg (by omega), if_pos ⟨htail, by decide⟩]
    exact finderCell_ne_unassigned _ _ r 6
  · rw [functionalCell, if_neg (by omega), if_neg (by omega), if_neg (by omega), if_neg (by omega), if_neg (by omega),
      if_pos rfl, ← colour_decide]
    exact colour_ne_unassigned _

/-- A functional pattern is none of the format cells, so format placement leaves it. -/
theorem get_fmtGridOf_pattern (hr : r < v.size) (hc : c < v.size) (hpat : functionalCell v r c ≠ .unassigned) :
    Grid.get (fmtGridOf v) r c = some (functionalCell v r c) := by
  have hother : (r, c) ∉ formatCopy1 ++ formatCopy2 v.size := fun hmem =>
    hpat (functionalCell_of_mem_formatCopies v _ hmem).2.2
  rw [get_fmtGridOf_other hother, get_funcGridOf_inside hr hc]

theorem get_symbolOf_pattern (input : List Byte) (hr : r < v.size) (hc : c < v.size)
    (hpat : functionalCell v r c ≠ .unassigned) :
    Grid.get (symbolOf v input) r c = some (functionalCell v r c) := by
  have hfmt := get_fmtGridOf_pattern hr hc hpat
  rw [get_symbolOf_assigned input (by rwa [hfmt, ne_eq, Option.some.injEq]), hfmt]

/-- Data placement leaves the format cells, which hold colours. -/
theorem get_symbolOf_formatCell (input : List Byte) {rc : Nat × Nat} (hrc : rc ∈ formatCopy1 ++ formatCopy2 v.size) :
    Grid.get (symbolOf v input) rc.1 rc.2 = Grid.get (fmtGridOf v) rc.1 rc.2 := by
  obtain ⟨i, hi, hbit⟩ := mem_formatCopies.mp hrc
  have hfmt : Grid.get (fmtGridOf v) rc.1 rc.2 = some (formatColour i) :=
    get_placeFormat_cell (isSquare_funcGridOf v) hi hbit
  apply get_symbolOf_assigned
  rw [hfmt, ne_eq, Option.some.injEq]
  exact colour_ne_unassigned _

/-- What is free for data placement is outside column 6, so the traversal reaches it. -/
theorem mem_freeCells_fmtGridOf (hr : r < v.size) (hc : c < v.size)
    (hfree : Grid.get (fmtGridOf v) r c = some .unassigned) : (r, c) ∈ freeCells (fmtGridOf v) (traversal v.size) := by
  obtain ⟨h21, hodd, -⟩ := size_facts v
  have h6 : c ≠ 6 := by
    rintro rfl
    have hpat := functionalCell_column_six v r
    rw [get_fmtGridOf_pattern hr hc hpat, Option.some.injEq] at hfree
    exact hpat hfree
  exact mem_freeCells.mpr ⟨(mem_traversal (by omega) hodd).mpr ⟨hr, hc, h6⟩, hfree⟩

theorem get_symbolOf_ne_unassigned (input : List Byte) (hr : r < v.size) (hc : c < v.size) :
    Grid.get (symbolOf v input) r c ≠ some .unassigned := by
  by_cases hfree : Grid.get (fmtGridOf v) r c = some .unassigned
  · obtain ⟨k, hk⟩ := List.mem_iff_getElem?.mp (mem_freeCells_fmtGridOf hr hc hfree)
    rw [symbolOf, get_placeData_freeCell _ hk, ne_eq, Option.some.injEq]
    exact colour_ne_unassigned _
  · rwa [get_symbolOf_assigned input hfree]

/-- Settles O45: the grid is the symbol of the input, which has every cell and no U cell. -/
theorem finishedGridIsAssigned : Obligations.FinishedGridIsAssigned := by
  intro s v r c hinv hp hv hr hc
  obtain ⟨input, hgrid⟩ := hinv.exists_symbolOf_eq hp hv
  have hne := get_symbolOf_ne_unassigned input hr hc
  have hin := (Grid.get_isSome (isSquare_symbolOf v input) r c).mpr ⟨hr, hc⟩
  obtain ⟨x, hx⟩ := Option.isSome_iff_exists.mp hin
  rw [hx] at hne
  rw [hgrid, hx]
  cases x with
  | unassigned => exact absurd rfl hne
  | light => exact .inr rfl
  | dark => exact .inl rfl

/-- Settles O46: data placement leaves what the stages before it assigned. -/
theorem patternsSurviveInFinishedGrid : Obligations.PatternsSurviveInFinishedGrid := by
  intro s v hinv hp hv
  obtain ⟨input, hgrid⟩ := hinv.exists_symbolOf_eq hp hv
  obtain ⟨hcopy1, hcopy2⟩ := map_get_formatCopies (isSquare_funcGridOf v)
  rw [hgrid]
  refine ⟨fun r c hr hc hpat => get_symbolOf_pattern input hr hc hpat, ?_, ?_⟩
  · rw [← hcopy1]
    exact List.map_congr_left fun rc hrc => get_symbolOf_formatCell input (List.mem_append_left _ hrc)
  · rw [← hcopy2]
    exact List.map_congr_left fun rc hrc => get_symbolOf_formatCell input (List.mem_append_right _ hrc)

end Sys2Proof.Machine
end

/-! ### Control, the composite and readout -/

section
namespace Sys2Proof.Machine

open Sys2Proof.Claims

variable {s t : State}

/-! #### NOP, CLEAR and PUSHB (R140 to R142) -/

/-- Settles O47: NOP is legal in every phase, and its rule answers the state it is given. -/
theorem nopKeepsState : Obligations.NopKeepsState := fun s => by
  rw [exec_nop, guarded_legal rfl]

/-- With no fault on record and RES zero, a fresh call is the reset state but for the host port (R25). -/
theorem clearCall_eq_reset (hflt : s.flt = .none) (hfinfo : s.finfo = 0) (hres : s.res = 0) :
    s.clearCall = { State.reset with rsp := s.rsp, host := s.host } := by
  rw [State.clearCall, hflt, hfinfo, hres, State.reset]

/-- Settles O48: CLEAR is legal in every phase, and its rule empties the per-call state. -/
theorem clearOpensFreshCall : Obligations.ClearOpensFreshCall := by
  intro s
  have hexec : exec .clear s = .next s.clearCall := by rw [exec_clear, guarded_legal rfl]
  exact ⟨s.clearCall, hexec, rfl, rfl, rfl, rfl, fun i => ⟨rfl, rfl, rfl⟩, Grid.get_nil, rfl, rfl, rfl, rfl, rfl,
    clearCall_eq_reset⟩

/-- Settles O49: below 255 the byte is written at index LEN, and LEN + 1 does not wrap. -/
theorem pushbAppendsByte : Obligations.PushbAppendsByte := by
  intro a s hp
  have hexec : exec (.pushb a) s = .next (pushbBody a s) := by rw [exec_pushb, guarded_legal (by rw [hp]; rfl)]
  rw [hexec]
  obtain ⟨hfull, hs⟩ | ⟨hroom, hs⟩ := pushbBody_cases a s
  · refine ⟨fun hlt => ?_, fun _ => by rw [hs]⟩
    rw [hfull] at hlt
    exact absurd hlt (by decide)
  · refine ⟨fun hlt => ?_, fun hfull => absurd (BitVec.eq_of_toNat_eq hfull) hroom⟩
    have hlen : (s.len + 1).toNat = s.len.toNat + 1 := by bv_omega
    exact ⟨_, by rw [hs], rfl, hlen, Memory.read_write_same .., fun i hi => Memory.read_write_other _ _ hi⟩

/-! #### GEN and the stage commands (R150) -/

/-- Where the outcome is a next state, that state is in the phase `p`. -/
def EndsIn (p : Phase) (o : Host.Outcome State Fault Refusal) : Prop :=
  ∀ t, o = .next t → t.phase = p

theorem endsIn_andThen {p : Phase} {o : Host.Outcome State Fault Refusal}
    {k : State → Host.Outcome State Fault Refusal} (hk : ∀ s, EndsIn p (k s)) : EndsIn p (andThen o k) := by
  intro t h
  obtain ⟨u, -, hu⟩ := andThen_next h
  exact hk u t hu

theorem endsIn_packBody (s : State) : EndsIn .packed (packBody s) := by
  intro t h
  obtain ⟨v, input, -, -, rfl⟩ := packBody_next h
  rfl

theorem endsIn_ilvBody (s : State) : EndsIn .coded (ilvBody s) := by
  intro t h
  obtain ⟨v, data, -, -, rfl⟩ := ilvBody_next h
  rfl

theorem endsIn_mfuncBody (s : State) : EndsIn .func (mfuncBody s) := by
  intro t h
  obtain ⟨v, -, rfl⟩ := mfuncBody_next h
  rfl

theorem endsIn_mfmtBody (s : State) : EndsIn .fmt (mfmtBody s) := by
  intro t h
  obtain ⟨v, -, -, rfl⟩ := mfmtBody_next h
  rfl

/-- After an outcome in a phase where a command is legal, its phase check passes. -/
theorem andThen_exec {p : Phase} {o : Host.Outcome State Fault Refusal} {i : Instr} (ho : EndsIn p o)
    (hl : legal i p = true) : andThen o (exec i) = andThen o (ruleOf i) := by
  cases o with
  | next u =>
    rw [andThen_of_next, andThen_of_next, exec_eq_guarded_ruleOf, guarded_legal (by rw [ho u rfl, hl])]
  | fault f => rfl
  | refused r => rfl

/-- Each stage leaves the phase in which the next stage command is legal. -/
theorem stageCommands_eq_stagesBody (hp : s.phase = .selected) :
    andThen (andThen (andThen (andThen (exec .pack s) (exec .ilv)) (exec .mfunc)) (exec .mfmt)) (exec .mdata) =
      stagesBody s := by
  rw [exec_pack, guarded_legal (by rw [hp]; rfl), andThen_exec (endsIn_packBody s) rfl,
    andThen_exec (endsIn_andThen (k := ruleOf .ilv) endsIn_ilvBody) rfl,
    andThen_exec (endsIn_andThen (k := ruleOf .mfunc) endsIn_mfuncBody) rfl,
    andThen_exec (endsIn_andThen (k := ruleOf .mfmt) endsIn_mfmtBody) rfl]
  rfl

/-- Settles O50: a selection that does not fail leaves SELECTED, where the stage commands run the stages' bodies. -/
theorem genEqualsStageCommands : Obligations.GenEqualsStageCommands := by
  intro s s1 hp hvsel
  rw [exec_vsel_load hp, Host.Outcome.next.injEq] at hvsel
  subst hvsel
  rw [exec_gen_load hp]
  refine ⟨genBody_of_vselBody_error, fun hne => ?_⟩
  have hselected : (vselBody s).phase = .selected := (vselBody_phase s).resolve_right hne
  rw [stageCommands_eq_stagesBody hselected, genBody, if_neg hne]

/-! #### What GEN makes of an input (R150, R156, R157) -/

theorem CallInv.genBody_of_fits {input : List Byte} (h : CallInv s input) (hp : s.phase = .load) (hovf : s.ovf = false)
    (hlen : s.len.toNat ≤ 134) :
    ∃ v, selectVersion input.length = some v ∧ genBody s = .next (s.atStage .done v input) := by
  obtain ⟨v, hsel, hs⟩ := vselBody_of_fits hovf hlen
  have hstage : vselBody s = s.atStage .selected v input := hs.trans (h.select_eq_atStage hp v)
  refine ⟨v, h.len_eq ▸ hsel, ?_⟩
  rw [genBody, hstage, if_neg nofun, stagesBody_atStage h]

theorem genBody_of_not_fits (h : s.ovf = true ∨ 135 ≤ s.len.toNat) : genBody s = .next s.failCapacity := by
  have hs := vselBody_of_not_fits h
  rw [genBody_of_vselBody_error (by rw [hs, State.failCapacity_phase]), hs]

/-- IN and LEN tell the input. -/
theorem CallInv.input_unique {input input' : List Byte} (hs : CallInv s input) (ht : CallInv t input')
    (hinp : s.inp = t.inp) (hlen : s.len = t.len) : input = input' := by
  have hload := hs.load_inp
  rw [hinp, hlen, ht.load_inp] at hload
  exact (Option.some.inj hload).symm

/-- Settles O51: the state after the last stage is the one described. -/
theorem genFinishesSymbol : Obligations.GenFinishesSymbol := by
  intro s input hcall hp hovf hlen
  obtain ⟨v, hsel, hgen⟩ := hcall.genBody_of_fits hp hovf hlen
  exact ⟨s.atStage .done v input, v, by rw [exec_gen_load hp, hgen], hsel, rfl⟩

/-- Settles O52: IN, LEN and OVF decide whether the input fits; one that fits gives the symbol of the input, and one
that does not leaves the empty buffers of LOAD. -/
theorem genDependsOnInputOnly : Obligations.GenDependsOnInputOnly := by
  rintro s1 s2 t1 t2 ⟨⟨input, hcall1⟩, -⟩ ⟨⟨input2, hcall2⟩, -⟩ hp1 hp2 hinp hlen hovf ht1 ht2
  obtain rfl : input = input2 := hcall1.input_unique hcall2 hinp hlen
  rw [exec_gen_load hp1] at ht1
  rw [exec_gen_load hp2] at ht2
  by_cases hfits : s1.ovf = false ∧ s1.len.toNat ≤ 134
  · obtain ⟨hovf1, hlen1⟩ := hfits
    obtain ⟨v, hsel1, hgen1⟩ := hcall1.genBody_of_fits hp1 hovf1 hlen1
    obtain ⟨u, hsel2, hgen2⟩ := hcall2.genBody_of_fits hp2 (hovf ▸ hovf1) (hlen ▸ hlen1)
    obtain rfl : v = u := Option.some.inj (hsel1.symm.trans hsel2)
    obtain rfl := Host.Outcome.next.inj (hgen1.symm.trans ht1)
    obtain rfl := Host.Outcome.next.inj (hgen2.symm.trans ht2)
    exact ⟨rfl, rfl, rfl, rfl, rfl⟩
  · have hfail : s1.ovf = true ∨ 135 ≤ s1.len.toNat := by
      rw [not_and_or, Bool.not_eq_false, Nat.not_le] at hfits
      exact hfits
    obtain rfl := Host.Outcome.next.inj ((genBody_of_not_fits hfail).symm.trans ht1)
    obtain rfl := Host.Outcome.next.inj ((genBody_of_not_fits (hovf ▸ hlen ▸ hfail)).symm.trans ht2)
    obtain ⟨-, hdcw1, hcw1, hgrid1⟩ := hcall1.no_version (by rw [hp1]; rfl)
    obtain ⟨-, hdcw2, hcw2, hgrid2⟩ := hcall2.no_version (by rw [hp2]; rfl)
    exact ⟨rfl, rfl, hdcw1.trans hdcw2.symm, hcw1.trans hcw2.symm, hgrid1.trans hgrid2.symm⟩

/-! #### RDSTAT and RDFLT (R151, R152) -/

theorem status_fields_lt (s : State) :
    s.flt.code.toNat < 2 ^ 2 ∧ s.len.toNat < 2 ^ 8 ∧ s.ovf.toNat < 2 ∧ (verCode s.ver).toNat < 2 ^ 3 ∧
      s.phase.code.toNat < 2 ^ 4 :=
  ⟨s.flt.code.isLt, s.len.isLt, s.ovf.toNat_lt, (verCode s.ver).isLt, s.phase.code.isLt⟩

/-- STATUS is the sum of its fields, which do not overlap (R13). -/
theorem toNat_statusWord (s : State) :
    (statusWord s).toNat = 2 ^ 16 * s.flt.code.toNat + (2 ^ 8 * s.len.toNat + (2 ^ 7 * s.ovf.toNat +
      (2 ^ 4 * (verCode s.ver).toNat + s.phase.code.toNat))) := by
  obtain ⟨hflt, hlen, hovf, hver, hphase⟩ := status_fields_lt s
  rw [Nat.two_pow_add_eq_or_of_lt (by omega), Nat.two_pow_add_eq_or_of_lt (by omega),
    Nat.two_pow_add_eq_or_of_lt (by omega), Nat.two_pow_add_eq_or_of_lt (by omega)]
  simp (disch := omega) [statusWord, Nat.shiftLeft_eq, Nat.mul_comm, Nat.or_assoc, Nat.mod_eq_of_lt]

/-- Settles O53: each field is read off the sum, and its code is the value of R12, R16 and R20. -/
theorem rdstatReadsStatus : Obligations.RdstatReadsStatus := by
  intro s
  have hexec : exec .rdstat s = .next { s with res := statusWord s } := by
    rw [exec_rdstat, guarded_legal rfl, State.writeRes]
  have hword := toNat_statusWord s
  obtain ⟨hflt, hlen, hovf, hver, hphase⟩ := status_fields_lt s
  refine ⟨statusWord s, hexec, ?_, ?_, by omega, by omega, ?_, by omega⟩
  · calc (statusWord s).toNat % 16 = s.phase.code.toNat := by omega
      _ = _ := by cases s.phase <;> rfl
  · calc (statusWord s).toNat / 2 ^ 4 % 8 = (verCode s.ver).toNat := by omega
      _ = _ := by
        cases s.ver with
        | none => rfl
        | some v => cases v <;> rfl
  · calc (statusWord s).toNat / 2 ^ 16 % 4 = s.flt.code.toNat := by omega
      _ = _ := by cases s.flt <;> rfl

/-- Settles O54: RDFLT is legal in every phase, and its rule copies FINFO. -/
theorem rdfltReadsFaultInfo : Obligations.RdfltReadsFaultInfo := fun s => by
  rw [exec_rdflt, guarded_legal rfl, State.writeRes]

/-! #### RDDCW, RDCW and RDMOD (R153 to R155) -/

/-- An element that does not exist is recorded as R166 says (R164). -/
theorem checkIndex_eq_recorded {i : Instr} {p : Prop} [Decidable p] {k : Host.Outcome State Fault Refusal} (h : ¬p) :
    checkIndex i s p k = .next (recorded s .indexRange (encode i)) := by
  rw [checkIndex_outside h, raise_eq_recorded]

theorem readByte_some {sp : Space} {m : Memory} {a b : Byte} (h : Memory.read m a.toNat = some b) :
    readByte sp m a s = .next { s with res := BitVec.ofNat 32 b.toNat } := by
  rw [readByte, indexOf, h, BitVec.ofNat_toNat]
  rfl

/-- A read of a buffer of `n` codewords: the byte, or IndexRange. -/
theorem checkIndex_readByte (i : Instr) (s : State) (sp : Space) (m : Memory) (a : Byte) (n : Nat) :
    (∀ b, a.toNat < n → Memory.read m a.toNat = some b →
      checkIndex i s (indexOf a < n) (readByte sp m a s) = .next { s with res := BitVec.ofNat 32 b.toNat }) ∧
    (n ≤ a.toNat →
      checkIndex i s (indexOf a < n) (readByte sp m a s) = .next (recorded s .indexRange (encode i))) :=
  ⟨fun _ hin hread => (checkIndex_inside hin).trans (readByte_some hread),
    fun hout => checkIndex_eq_recorded (Nat.not_lt.mpr hout)⟩

/-- Settles O55: in a legal phase RDDCW is a read of the data codewords. -/
theorem rddcwReadsDataCodeword : Obligations.RddcwReadsDataCodeword := by
  intro a s v hp hv
  rw [exec_rddcw, guarded_legal ((legal_iff_mem_legalPhases _ _).mpr hp), withVersion_some hv]
  exact checkIndex_readByte ..

/-- Settles O56: in a legal phase RDCW is a read of the final sequence. -/
theorem rdcwReadsCodeword : Obligations.RdcwReadsCodeword := by
  intro a s v hp hv
  rw [exec_rdcw, guarded_legal ((legal_iff_mem_legalPhases _ _).mpr hp), withVersion_some hv]
  exact checkIndex_readByte ..

/-- Settles O57: inside the side RDMOD writes the module value, which is 1 for a dark cell only. -/
theorem rdmodReadsModule : Obligations.RdmodReadsModule := by
  intro a b s v hp hv
  rw [exec_rdmod, guarded_legal (by rw [hp]; rfl), withVersion_some hv]
  constructor
  · intro hr hc hgrid
    rw [checkIndex_inside ⟨hr, hc⟩, withGrid_square hgrid, indexOf, indexOf]
    constructor
    · intro hdark
      rw [hdark]
      rfl
    · intro hlight
      rw [hlight]
      rfl
  · intro hout
    refine checkIndex_eq_recorded fun hin => ?_
    obtain ⟨hr, hc⟩ := hin
    exact hout.elim (Nat.not_le.mpr hr) (Nat.not_le.mpr hc)

end Sys2Proof.Machine
end

/-! ### A word that comes after the first fault, and no word at all -/

section
namespace Sys2Proof.Machine

open Sys2Proof.Claims

variable {s t : State} {i : Instr}

/-- Settles O11: with nothing on the host's list the step answers the state it was given. -/
theorem idleKeepsState : Obligations.IdleKeepsState := fun _ => step_idle

/-- Only a protocol fault writes FLT and FINFO, and after the first one it writes nothing (R169). -/
theorem exec_keeps_fault_record (hflt : s.flt ≠ .none) (h : exec i s = .next t) :
    t.flt = s.flt ∧ t.finfo = s.finfo := by
  obtain ⟨-, h⟩ | ⟨-, rfl⟩ := exec_next h
  · cases hi : producesResult i with
    | false =>
      obtain ⟨-, hrecord⟩ := sameRecords_ruleOf hi h
      exact hrecord
    | true =>
      obtain ⟨w, rfl⟩ | rfl := ruleOf_next_of_producesResult hi h
      · exact ⟨rfl, rfl⟩
      · rw [State.raise_later hflt]
        exact ⟨rfl, rfl⟩
  · rw [State.raise_later hflt]
    exact ⟨rfl, rfl⟩

theorem exec_of_illegal_phase (hp : s.phase ∉ legalPhases i) :
    exec i s = .next (s.raise .sequenceError (encode i)) := by
  rw [exec_eq_guarded_ruleOf, guarded_illegal]
  rwa [← legal_iff_mem_legalPhases, Bool.not_eq_true] at hp

/-- In phase, a read of an element that the selected version does not have raises IndexRange (R164). -/
theorem exec_of_indexBeyond {v : Version} (hp : s.phase ∈ legalPhases i) (hv : s.ver = some v)
    (hi : indexBeyond v i) : exec i s = .next (s.raise .indexRange (encode i)) := by
  rw [exec_eq_guarded_ruleOf, guarded_legal ((legal_iff_mem_legalPhases _ _).mpr hp)]
  cases i with
  | rddcw | rdcw => exact (withVersion_some hv).trans (checkIndex_outside (Nat.not_lt.mpr hi))
  | rdmod a b =>
    refine (withVersion_some hv).trans (checkIndex_outside fun ⟨hr, hc⟩ => ?_)
    exact hi.elim (Nat.not_le.mpr hr) (Nat.not_le.mpr hc)
  | nop | clear | pushb | gfmul | vsel | pack | ilv | mfunc | mfmt | mdata | gen | rdstat | rdflt => exact hi.elim

/-- A command that only raises a fault, after the first one, is answered and changes nothing else (R169, R48). -/
theorem runCommand_raise_later {w : Word} {code : FaultCode} (hflt : s.flt ≠ .none) (hdec : decode w = .ok i)
    (hexec : exec i s = .next (s.raise code (encode i))) : runCommand exec w s = .next s.respond := by
  rw [runCommand_ok hdec, hexec, State.raise_later hflt, andThen_of_next]

/-- A rejected word after the first fault is answered and changes nothing else (R169, R48). -/
theorem runCommand_error_later {w : Word} {e : Reject} (hflt : s.flt ≠ .none) (hdec : decode w = .error e) :
    runCommand exec w s = .next s.respond := by
  rw [runCommand_error hdec, State.raise_later hflt]

theorem runCommand_keeps_fault_record {w : Word} (hflt : s.flt ≠ .none) (h : runCommand exec w s = .next t) :
    t.flt = s.flt ∧ t.finfo = s.finfo := by
  obtain ⟨i, u, -, hu, rfl⟩ | ⟨e, he, -⟩ := runCommand_next h
  · obtain ⟨hkeptFlt, hkeptFinfo⟩ := exec_keeps_fault_record hflt hu
    exact ⟨hkeptFlt, hkeptFinfo⟩
  · rw [runCommand_error_later hflt he] at h
    cases h
    exact ⟨rfl, rfl⟩

/-- Settles O18: a raise is all that an illegal word, a command out of phase or an index out of range does, and after
the first fault a raise is nothing. -/
theorem firstFaultIsKept : Obligations.FirstFaultIsKept := by
  intro s t w rest hhost hflt h
  rw [step_command hhost] at h
  obtain ⟨hkeptFlt, hkeptFinfo⟩ := runCommand_keeps_fault_record (s := s.withHost rest) hflt h
  have hanswer (hrun : runCommand exec w (s.withHost rest) = .next (s.withHost rest).respond) :
      t = { s with rsp := some s.res, host := rest } :=
    Host.Outcome.next.inj (h.symm.trans hrun)
  refine ⟨hkeptFlt, hkeptFinfo, fun hp => hanswer ?_, fun i v hdec hp hv hi => hanswer ?_⟩
  · cases hdec : decode w with
    | error e => exact runCommand_error_later hflt hdec
    | ok i => exact runCommand_raise_later hflt hdec (exec_of_illegal_phase (hp i hdec))
  · exact runCommand_raise_later hflt hdec (exec_of_indexBeyond hp hv hi)

end Sys2Proof.Machine
end

/-! ### The reset action and the host's side of the port -/

section
namespace Sys2Proof.Machine

open Sys2Proof.Claims

/-- Settles O19: a command's rule leaves the port as it is, and so does the fault entry. -/
theorem commandsLeaveHostPort : Obligations.CommandsLeaveHostPort :=
  fun _ _ _ => sameHostPort_exec

/-- Settles O10: the step answers the reset state, whose buffers and grid are empty, with the rest of the host's list. -/
theorem resetActionRestoresResetState : Obligations.ResetActionRestoresResetState := by
  intro s rest hhost
  have hbuffers (i : Nat) : Memory.read (applyReset rest).inp i = none ∧ Memory.read (applyReset rest).dcw i = none ∧
      Memory.read (applyReset rest).cw i = none :=
    ⟨Memory.read_nil i, Memory.read_nil i, Memory.read_nil i⟩
  exact ⟨applyReset rest, step_reset hhost, rfl, rfl, rfl, rfl, rfl, rfl, rfl, hbuffers, Grid.get_nil, rfl, rfl⟩

end Sys2Proof.Machine
end
